-- ==== Sys2Proof/Word.lean ====
section
/-! DEFINITION. The words of the display core: bytes and unsigned 16-bit operands (00_scope.md R10, R11). -/

namespace Sys2Proof

/-- A byte of the framebuffer, of a frame, of a payload. -/
abbrev Byte := BitVec 8

/-- A coordinate, a length, a line number: unsigned 16 bits (00_scope.md R11). -/
abbrev U16 := BitVec 16

end Sys2Proof
end

