-- ==== Sys2Proof/Syntax.lean ====
section
/-! DEFINITION. The seventeen operations of 30_encoding.md R70, one constructor per row of
spec/opcode_table.json, operands as R73 carries them. -/

namespace Sys2Proof

inductive Instr where
  /-- GETPX x, y (40_framebuffer.md R90). -/
  | getpx (x y : U16)
  /-- SETPX x, y, c (40_framebuffer.md R91). -/
  | setpx (x y : U16) (c : Bool)
  /-- FBCLR c (40_framebuffer.md R92). -/
  | fbclr (c : Bool)
  /-- ROWRD y (40_framebuffer.md R93). -/
  | rowrd (y : U16)
  /-- LINE x1, y1, x2, y2, c (41_raster_runs.md R103). -/
  | line (x1 y1 x2 y2 : U16) (c : Bool)
  /-- HLINE x, y, len, c (41_raster_runs.md R107). -/
  | hline (x y len : U16) (c : Bool)
  /-- VLINE x, y, h, c (41_raster_runs.md R110). -/
  | vline (x y h : U16) (c : Bool)
  /-- RECT x1, y1, x2, y2, c (42_raster_shapes.md R121). -/
  | rect (x1 y1 x2 y2 : U16) (c : Bool)
  /-- FRECT x1, y1, x2, y2, c (42_raster_shapes.md R125). -/
  | frect (x1 y1 x2 y2 : U16) (c : Bool)
  /-- TEXBLT x, y and `nrows` rows of `rowlen` payload bytes (42_raster_shapes.md R130, 30_encoding.md R75). -/
  | texblt (x y nrows rowlen : U16) (payload : List Byte)
  /-- PUTCH x, y, code, c (43_glyphs.md R141). -/
  | putch (x y : U16) (code : Byte) (c : Bool)
  /-- PRSET x, y, c (43_glyphs.md R145). -/
  | prset (x y : U16) (c : Bool)
  /-- PRCH code (43_glyphs.md R146). -/
  | prch (code : Byte)
  /-- DCLR (44_protocol.md R160). -/
  | dclr
  /-- RFSH (44_protocol.md R161). -/
  | rfsh
  /-- RFLN n (44_protocol.md R162). -/
  | rfln (n : U16)
  /-- TEXDEC of `plen` payload bytes (45_asset_decoder.md R176, 30_encoding.md R75). -/
  | texdec (plen : BitVec 32) (bytes : List Byte)
  deriving DecidableEq, Repr

/-- The payload that follows the descriptor (30_encoding.md R75). -/
def Instr.payload : Instr → List Byte
  | .texblt _ _ _ _ p => p
  | .texdec _ p => p
  | .getpx _ _ | .setpx _ _ _ | .fbclr _ | .rowrd _ | .line _ _ _ _ _ | .hline _ _ _ _
  | .vline _ _ _ _ | .rect _ _ _ _ _ | .frect _ _ _ _ _ | .putch _ _ _ _ | .prset _ _ _
  | .prch _ | .dclr | .rfsh | .rfln _ => []

/-- The number of payload bytes the descriptor announces (30_encoding.md R75). -/
def Instr.payloadLength : Instr → Nat
  | .texblt _ _ nrows rowlen _ => nrows.toNat * rowlen.toNat
  | .texdec plen _ => plen.toNat
  | .getpx _ _ | .setpx _ _ _ | .fbclr _ | .rowrd _ | .line _ _ _ _ _ | .hline _ _ _ _
  | .vline _ _ _ _ | .rect _ _ _ _ _ | .frect _ _ _ _ _ | .putch _ _ _ _ | .prset _ _ _
  | .prch _ | .dclr | .rfsh | .rfln _ => 0

end Sys2Proof
end

