-- ==== Sys2Proof/WellFormed.lean ====
section
/-! DEFINITION. Which terms of `Instr` an encoding exists for: the payload is as long as the descriptor
says (30_encoding.md R75). -/

namespace Sys2Proof

/-- The payload has the length the operation's fields announce (30_encoding.md R75). Every other operand
fits its field by its type. -/
def Instr.wellFormed (i : Instr) : Bool := i.payload.length == i.payloadLength

abbrev Instr.WellFormed (i : Instr) : Prop := i.wellFormed = true

end Sys2Proof
end

