-- ==== Sys2Proof/Decode.lean ====
section
/-! DEFINITION. The command descriptor CMD80 (30_encoding.md R72 to R77): the decoder, total on any bytes,
the encoder, and the opcode table's match and mask words. -/

namespace Sys2Proof

/-! ## Byte order -/

/-- Bits 7 to 0 of a 16-bit field: the byte at the lower offset (30_encoding.md R72). -/
def U16.lo (v : U16) : Byte := v.setWidth 8

/-- Bits 15 to 8 of a 16-bit field. -/
def U16.hi (v : U16) : Byte := (v >>> 8).setWidth 8

/-- The little-endian value of two bytes (20_memory.md R43). -/
def U16.ofBytes (lo hi : Byte) : U16 := hi.setWidth 16 <<< 8 ||| lo.setWidth 16

/-! ## The descriptor -/

/-- The fields of CMD80 (30_encoding.md R72). -/
structure Descriptor where
  op : Byte
  c : Bool
  rsv : BitVec 7
  A : U16
  B : U16
  C : U16
  D : U16
  deriving DecidableEq, Repr

/-- Byte 1 of the descriptor: colour in bit 0, reserved bits above it. -/
def Descriptor.colourByte (d : Descriptor) : Byte :=
  d.rsv.setWidth 8 <<< 1 ||| (BitVec.ofBool d.c).setWidth 8

/-- The ten bytes of the descriptor in the order presented (30_encoding.md R72). -/
def Descriptor.toBytes (d : Descriptor) : List Byte :=
  [d.op, d.colourByte, d.A.lo, d.A.hi, d.B.lo, d.B.hi, d.C.lo, d.C.hi, d.D.lo, d.D.hi]

/-- The descriptor read from its ten bytes (30_encoding.md R72). -/
def Descriptor.ofBytes (b0 b1 b2 b3 b4 b5 b6 b7 b8 b9 : Byte) : Descriptor :=
  { op := b0, c := b1.getLsbD 0, rsv := (b1 >>> 1).setWidth 7, A := U16.ofBytes b2 b3,
    B := U16.ofBytes b4 b5, C := U16.ofBytes b6 b7, D := U16.ofBytes b8 b9 }

/-- The seventeen operation codes by name. -/
inductive Opcode where
  | getpx | setpx | fbclr | rowrd | line | hline | vline | rect | frect | texblt | putch | prset
  | prch | dclr | rfsh | rfln | texdec
  deriving DecidableEq, Repr

/-- The opcode map (30_encoding.md R74). -/
def opcodeOf (op : Byte) : Option Opcode :=
  match op.toNat with
  | 0x01 => some .getpx
  | 0x02 => some .setpx
  | 0x03 => some .fbclr
  | 0x04 => some .rowrd
  | 0x10 => some .line
  | 0x11 => some .hline
  | 0x12 => some .vline
  | 0x13 => some .rect
  | 0x14 => some .frect
  | 0x15 => some .texblt
  | 0x16 => some .putch
  | 0x18 => some .prset
  | 0x19 => some .prch
  | 0x20 => some .dclr
  | 0x21 => some .rfsh
  | 0x22 => some .rfln
  | 0x30 => some .texdec
  | _ => none

/-- How an operation uses field C (30_encoding.md R73). -/
inductive CUse where
  | unused
  /-- A glyph code in `C[7:0]`, and `C[15:8]` must be 0. -/
  | code
  | full
  deriving DecidableEq, Repr

/-- Which fields carry an operand (30_encoding.md R73). -/
structure FieldUse where
  c : Bool
  A : Bool
  B : Bool
  C : CUse
  D : Bool
  deriving DecidableEq, Repr

/-- The table of 30_encoding.md R73. -/
def Opcode.fields : Opcode → FieldUse
  | .getpx => ⟨false, true, true, .unused, false⟩
  | .setpx => ⟨true, true, true, .unused, false⟩
  | .fbclr => ⟨true, false, false, .unused, false⟩
  | .rowrd => ⟨false, false, true, .unused, false⟩
  | .line => ⟨true, true, true, .full, true⟩
  | .hline => ⟨true, true, true, .full, false⟩
  | .vline => ⟨true, true, true, .full, false⟩
  | .rect => ⟨true, true, true, .full, true⟩
  | .frect => ⟨true, true, true, .full, true⟩
  | .texblt => ⟨false, true, true, .full, true⟩
  | .putch => ⟨true, true, true, .code, false⟩
  | .prset => ⟨true, true, true, .unused, false⟩
  | .prch => ⟨false, false, false, .code, false⟩
  | .dclr => ⟨false, false, false, .unused, false⟩
  | .rfsh => ⟨false, false, false, .unused, false⟩
  | .rfln => ⟨false, false, true, .unused, false⟩
  | .texdec => ⟨false, false, false, .full, true⟩

/-- Every field the operation does not use is 0 (30_encoding.md R77 (c)). -/
def Descriptor.unusedZero (d : Descriptor) (u : FieldUse) : Bool :=
  (u.c || !d.c) && (u.A || d.A == 0) && (u.B || d.B == 0)
    && (match u.C with | .unused => d.C == 0 | .code => d.C.hi == 0 | .full => true)
    && (u.D || d.D == 0)

/-- TEXDEC's `plen`: D holds bits 31 to 16, C bits 15 to 0 (30_encoding.md R73, R75). -/
def Descriptor.plen (d : Descriptor) : BitVec 32 := d.D.setWidth 32 <<< 16 ||| d.C.setWidth 32

/-- The payload bytes a legal descriptor announces (30_encoding.md R75). -/
def Descriptor.payloadLength (d : Descriptor) : Opcode → Nat
  | .texblt => d.C.toNat * d.D.toNat
  | .texdec => d.plen.toNat
  | .getpx | .setpx | .fbclr | .rowrd | .line | .hline | .vline | .rect | .frect | .putch | .prset
  | .prch | .dclr | .rfsh | .rfln => 0

/-- The operation with its operands taken from the fields of 30_encoding.md R73. -/
def Descriptor.operation (d : Descriptor) (payload : List Byte) : Opcode → Instr
  | .getpx => .getpx d.A d.B
  | .setpx => .setpx d.A d.B d.c
  | .fbclr => .fbclr d.c
  | .rowrd => .rowrd d.B
  | .line => .line d.A d.B d.C d.D d.c
  | .hline => .hline d.A d.B d.C d.c
  | .vline => .vline d.A d.B d.C d.c
  | .rect => .rect d.A d.B d.C d.D d.c
  | .frect => .frect d.A d.B d.C d.D d.c
  | .texblt => .texblt d.A d.B d.C d.D payload
  | .putch => .putch d.A d.B d.C.lo d.c
  | .prset => .prset d.A d.B d.c
  | .prch => .prch d.C.lo
  | .dclr => .dclr
  | .rfsh => .rfsh
  | .rfln => .rfln d.B
  | .texdec => .texdec d.plen payload

/-- Why a descriptor is illegal (30_encoding.md R77 (a), (b), (c)). -/
inductive DecodeError where
  | unknownOpcode
  | reservedNotZero
  | unusedNotZero
  deriving DecidableEq, Repr

/-- What the bytes on the command port are. -/
inductive Decoded where
  /-- A legal descriptor with its payload, and the bytes after them. -/
  | instr (i : Instr) (rest : List Byte)
  /-- An illegal descriptor, which has no payload: the bytes after its ten (30_encoding.md R77). -/
  | illegal (why : DecodeError) (rest : List Byte)
  /-- Fewer than ten bytes: no descriptor yet (30_encoding.md R72). -/
  | incomplete
  deriving DecidableEq, Repr

/-- Which operation a descriptor selects (30_encoding.md R74, R77). -/
def Descriptor.select (d : Descriptor) : Except DecodeError Opcode :=
  match opcodeOf d.op with
  | none => .error .unknownOpcode
  | some k =>
    if d.rsv ≠ 0 then .error .reservedNotZero
    else if d.unusedZero k.fields then .ok k
    else .error .unusedNotZero

/-- A descriptor followed by the bytes behind it. A payload cut short by the end of what was presented
is handed on as it is: the operation refuses it (log 10). -/
def Descriptor.decode (d : Descriptor) (rest : List Byte) : Decoded :=
  match d.select with
  | .error e => .illegal e rest
  | .ok k => .instr (d.operation (rest.take (d.payloadLength k)) k) (rest.drop (d.payloadLength k))

/-- The decoder (30_encoding.md R72 to R77). -/
def decode : List Byte → Decoded
  | b0 :: b1 :: b2 :: b3 :: b4 :: b5 :: b6 :: b7 :: b8 :: b9 :: rest =>
    (Descriptor.ofBytes b0 b1 b2 b3 b4 b5 b6 b7 b8 b9).decode rest
  | _ => .incomplete

/-! ## The encoder -/

/-- The descriptor of an operation: opcode of 30_encoding.md R74, operands in the fields of R73, every
other field 0. -/
def Instr.descriptor : Instr → Descriptor
  | .getpx x y => ⟨0x01, false, 0, x, y, 0, 0⟩
  | .setpx x y c => ⟨0x02, c, 0, x, y, 0, 0⟩
  | .fbclr c => ⟨0x03, c, 0, 0, 0, 0, 0⟩
  | .rowrd y => ⟨0x04, false, 0, 0, y, 0, 0⟩
  | .line x1 y1 x2 y2 c => ⟨0x10, c, 0, x1, y1, x2, y2⟩
  | .hline x y len c => ⟨0x11, c, 0, x, y, len, 0⟩
  | .vline x y h c => ⟨0x12, c, 0, x, y, h, 0⟩
  | .rect x1 y1 x2 y2 c => ⟨0x13, c, 0, x1, y1, x2, y2⟩
  | .frect x1 y1 x2 y2 c => ⟨0x14, c, 0, x1, y1, x2, y2⟩
  | .texblt x y nrows rowlen _ => ⟨0x15, false, 0, x, y, nrows, rowlen⟩
  | .putch x y code c => ⟨0x16, c, 0, x, y, code.setWidth 16, 0⟩
  | .prset x y c => ⟨0x18, c, 0, x, y, 0, 0⟩
  | .prch code => ⟨0x19, false, 0, 0, 0, code.setWidth 16, 0⟩
  | .dclr => ⟨0x20, false, 0, 0, 0, 0, 0⟩
  | .rfsh => ⟨0x21, false, 0, 0, 0, 0, 0⟩
  | .rfln n => ⟨0x22, false, 0, 0, n, 0, 0⟩
  | .texdec plen _ => ⟨0x30, false, 0, 0, 0, plen.setWidth 16, (plen >>> 16).setWidth 16⟩

/-- The bytes of an operation on the command port: its descriptor, then its payload (30_encoding.md R71). -/
def encode (i : Instr) : List Byte := i.descriptor.toBytes ++ i.payload

/-! ## The opcode table of 30_encoding.md R74 in its match and mask form -/

/-- One row: the descriptor word `W` of R72 selects the operation iff `W &&& mask = pattern`. -/
structure OpcodeRow where
  opcode : Opcode
  pattern : BitVec 80
  mask : BitVec 80
  deriving DecidableEq, Repr

/-- The seventeen rows of spec/opcode_table.json, copied. -/
def opcodeTable : List OpcodeRow :=
  [ ⟨.getpx, 0x00000000000000000001, 0xFFFFFFFF00000000FFFF⟩,
    ⟨.setpx, 0x00000000000000000002, 0xFFFFFFFF00000000FEFF⟩,
    ⟨.fbclr, 0x00000000000000000003, 0xFFFFFFFFFFFFFFFFFEFF⟩,
    ⟨.rowrd, 0x00000000000000000004, 0xFFFFFFFF0000FFFFFFFF⟩,
    ⟨.line, 0x00000000000000000010, 0x0000000000000000FEFF⟩,
    ⟨.hline, 0x00000000000000000011, 0xFFFF000000000000FEFF⟩,
    ⟨.vline, 0x00000000000000000012, 0xFFFF000000000000FEFF⟩,
    ⟨.rect, 0x00000000000000000013, 0x0000000000000000FEFF⟩ ]
  ++
  [ ⟨.frect, 0x00000000000000000014, 0x0000000000000000FEFF⟩,
    ⟨.texblt, 0x00000000000000000015, 0x0000000000000000FFFF⟩,
    ⟨.putch, 0x00000000000000000016, 0xFFFFFF0000000000FEFF⟩,
    ⟨.prset, 0x00000000000000000018, 0xFFFFFFFF00000000FEFF⟩,
    ⟨.prch, 0x00000000000000000019, 0xFFFFFF00FFFFFFFFFFFF⟩,
    ⟨.dclr, 0x00000000000000000020, 0xFFFFFFFFFFFFFFFFFFFF⟩,
    ⟨.rfsh, 0x00000000000000000021, 0xFFFFFFFFFFFFFFFFFFFF⟩,
    ⟨.rfln, 0x00000000000000000022, 0xFFFFFFFF0000FFFFFFFF⟩,
    ⟨.texdec, 0x00000000000000000030, 0x00000000FFFFFFFFFFFF⟩ ]

/-- The word `W` of 30_encoding.md R72: byte k of the descriptor in bits 8k+7 to 8k. -/
def Descriptor.word (d : Descriptor) : BitVec 80 :=
  d.toBytes.foldr (fun b w => w <<< 8 ||| b.setWidth 80) 0

/-! ## Words numbered as the opcode table numbers them -/

/-- The ten bytes of a descriptor word, the least significant first (30_encoding.md R72). -/
def wordBytes (w : Nat) : List Byte :=
  [0, 1, 2, 3, 4, 5, 6, 7, 8, 9].map (fun k => BitVec.ofNat 8 (w >>> (8 * k)))

/-- The payload length a descriptor announces, 0 for an illegal one (30_encoding.md R75, R77). -/
def announcedLength : List Byte → Nat
  | b0 :: b1 :: b2 :: b3 :: b4 :: b5 :: b6 :: b7 :: b8 :: b9 :: _ =>
    let d := Descriptor.ofBytes b0 b1 b2 b3 b4 b5 b6 b7 b8 b9
    match d.select with
    | .error _ => 0
    | .ok k => d.payloadLength k
  | _ => 0

/-- The bytes of the word `w` of `nbits` bits and of a payload of zeros as long as it announces. -/
def wordStream (nbits w : Nat) : List Byte :=
  wordBytes (w % 2 ^ nbits) ++ List.replicate (announcedLength (wordBytes (w % 2 ^ nbits))) 0

/-- The instruction the decoder reads from a word of the opcode table. -/
def decodeTableWord (nbits w : Nat) : Option Instr :=
  match decode (wordStream nbits w) with
  | .instr i _ => some i
  | .illegal _ _ => none
  | .incomplete => none

end Sys2Proof
end

