-- ==== Sys2Proof/Config.lean ====
section
/-! DEFINITION. The parameters of 00_scope.md R8 other than WIDTH and HEIGHT, as plain data, and the one
value of the environment no rule fixes. -/

namespace Sys2Proof

/-- RECT_EXTENT (00_scope.md R8): the reading of a rectangle's far corner. -/
inductive RectExtent where
  /-- The far corner is one past the figure (42_raster_shapes.md R122). -/
  | halfOpen
  /-- Both corners are on the figure (42_raster_shapes.md R123). -/
  | inclusive
  deriving DecidableEq, Repr

/-- A glyph: five column bytes, column 0 leftmost, bit 0 the top pixel (43_glyphs.md R140). -/
abbrev Glyph := Vector Byte 5

/-- FONT: a glyph for every code, so that a lookup cannot miss (43_glyphs.md R140). -/
abbrev Font := Vector Glyph 256

/-- The parameters of 00_scope.md R8 that are not state registers. Nothing writes them after reset. -/
structure Config where
  font : Font
  writeCmd : Byte
  clearCmd : Byte
  vcomBit : Byte
  vcomReset : Bool
  rectExtent : RectExtent
  deriving DecidableEq, Repr

/-- What 30_encoding.md R65 requires of the three command constants. -/
def Config.legal (c : Config) : Bool :=
  [0, 1, 2, 3, 4, 5, 6, 7].any (fun k => c.vcomBit == 1#8 <<< (k : Nat))
    && c.vcomBit &&& c.writeCmd == 0 && c.vcomBit &&& c.clearCmd == 0
    && c.writeCmd != c.clearCmd

/-- A font of 256 empty glyphs. The spec gives no contents (91_not_in_source.md N10).
DESIGN CHOICE (log 5), unsafe: only `State.reset` uses it. -/
def Font.blank : Font := Vector.replicate 256 (Vector.replicate 5 0)

/-- The defaults of 00_scope.md R8. PRESUMED command bytes (log 3), DESIGN CHOICE for the others
(log 4, log 5), unsafe: only `State.reset` and tests use them. -/
def Config.default : Config :=
  { font := Font.blank, writeCmd := 0x01, clearCmd := 0x04, vcomBit := 0x02, vcomReset := false,
    rectExtent := .halfOpen }

/-- FREE VALUE (log 12), safe: whether the Transport answers `Ok` to the n-th write since reset when
the environment has no answer ready (60_exceptions.md R201: "under no law"). -/
opaque Config.transportOk : Nat → Bool

end Sys2Proof
end

