-- ==== Sys2Proof/Machine/State.lean ====
section
/-! DEFINITION. The state of the display core (10_state.md R20), its ports (30_encoding.md R71), what an
operation answers (30_encoding.md R76), and the machine right after reset (70_reset_and_hazards.md R210). -/

namespace Sys2Proof.Machine

/-- Why the machine stops. -/
inductive Fault where
  /-- Raised by DCLR, RFSH and RFLN when the Transport never answers the write: the operation has no
  successor state (60_exceptions.md R201, 93_implementation_defined.md U7 "stuck"). Safe. -/
  | transportHang
  deriving DecidableEq, Repr

/-- Why a step has no meaning. -/
inductive Refusal where
  /-- Raised by `exec` for an instruction whose meaning is not written. Safe. No arm answers it. -/
  | notModelled (mnemonic : String)
  /-- Raised by `step` when the host has presented nothing: a run ends when the host issues no further
  operation (00_scope.md R15). Safe. DESIGN CHOICE (log 9). -/
  | awaitingCommand
  /-- Raised by `step` when the host has presented one to nine bytes, which are no descriptor yet
  (30_encoding.md R72). Safe. DESIGN CHOICE (log 9). -/
  | incompleteDescriptor
  deriving DecidableEq, Repr

/-- The error kinds (60_exceptions.md R185 to R189, R196). -/
inductive ErrorKind where
  | invalidDimensions
  | outOfBounds
  | truncated
  | transportError
  | illegalCommand
  deriving DecidableEq, Repr

/-- The success value of an operation (30_encoding.md R70, R76). -/
inductive Value where
  | nothing
  /-- GETPX. -/
  | bit (b : Bool)
  /-- ROWRD. -/
  | row (bytes : List Byte)
  /-- TEXDEC. -/
  | texture (width height : U16) (rows : List (List Byte))
  deriving DecidableEq, Repr

/-- The result of an operation: success with its value, or one error kind (60_exceptions.md R185). -/
inductive Result where
  | ok (v : Value)
  | error (e : ErrorKind)
  deriving DecidableEq, Repr

/-- What the Transport does with a write (60_exceptions.md R200, R201). -/
inductive Reply where
  | ok
  | err
  /-- It never answers. -/
  | silent
  deriving DecidableEq, Repr

/-- A frame handed to the Transport and whether the answer was `Ok` (60_exceptions.md R201). -/
structure Transmission where
  bytes : List Byte
  ok : Bool
  deriving DecidableEq, Repr

/-- One completed operation as the outside sees it (00_scope.md R15). -/
structure Completion where
  sent : Option Transmission
  result : Result
  deriving DecidableEq, Repr

/-- The Printer registers (10_state.md R25). -/
structure Printer where
  set : Bool
  x : U16
  y : U16
  color : Bool
  deriving DecidableEq, Repr

/-- The framebuffer as a sorted list of cells that differ from 0xFF (log 7). -/
abbrev Memory := List Host.Cell

structure State where
  /-- WIDTH (10_state.md R24). -/
  width : U16
  /-- HEIGHT (10_state.md R24). -/
  height : U16
  /-- FB (10_state.md R27). -/
  fb : Memory
  /-- The VCOM flag (10_state.md R23). -/
  vcom : Bool
  /-- The Printer registers (10_state.md R25). -/
  pr : Printer
  /-- The parameters of 00_scope.md R8, constant (log 2). -/
  cfg : Config
  /-- The command port: bytes presented and not yet taken, oldest first (log 8). -/
  port : List Byte
  /-- The Transport's answers the environment has ready, oldest first (log 12). -/
  replies : List Reply
  /-- Transport writes since reset (log 12). -/
  writes : Nat
  /-- The completed operations, newest first (log 14). -/
  trace : List Completion
  deriving DecidableEq, Repr

/-- The state a successful reset leaves (70_reset_and_hazards.md R210, R212): every framebuffer byte
0xFF, `vcom` at VCOM_RESET, no Printer, nothing sent. The cursor and colour, which hold no value until
PRSET, are 0: DESIGN CHOICE (log 6), unsafe. -/
def State.fresh (cfg : Config) (width height : U16) : State :=
  { width := width, height := height, fb := [], vcom := cfg.vcomReset,
    pr := { set := false, x := 0, y := 0, color := false }, cfg := cfg, port := [], replies := [],
    writes := 0, trace := [] }

/-- The machine right after reset, constructed with width 24 and height 10 and the default parameters.
DESIGN CHOICE (log 1), unsafe: the two arguments are the caller's. -/
def State.reset : State := State.fresh Config.default 24 10

end Sys2Proof.Machine
end

