-- ==== Sys2Proof/Machine/Ops.lean ====
section
/-! DEFINITION. The operations every meaning is built from: framebuffer access (00_scope.md R12,
20_memory.md R40, R41), the internal primitives SetBit, Apply, HRun and VRun (40_framebuffer.md R94,
41_raster_runs.md R108, R111), and the two ways an operation ends (60_exceptions.md R185, R192). -/

namespace Sys2Proof.Machine

/-- What an operation answers. -/
abbrev StepOutcome := Host.Outcome State Fault Refusal

/-! ## Memory -/

/-- What an unlisted byte reads as: the reset contents of the framebuffer (10_state.md R27). -/
def Memory.blank : Byte := 0xFF

/-- One byte. -/
def Memory.read : Memory → Nat → Byte
  | [], _ => Memory.blank
  | (k, v) :: m, a => if k = a then v else Memory.read m a

/-- One cell put in front unless it equals what an unlisted byte reads as. -/
def Memory.put (a : Nat) (v : Byte) (m : Memory) : Memory :=
  if v = Memory.blank then m else (a, v) :: m

/-- One byte stored, keeping the canonical form. -/
def Memory.write : Memory → Nat → Byte → Memory
  | [], a, v => Memory.put a v []
  | (k, w) :: m, a, v =>
    if a < k then Memory.put a v ((k, w) :: m)
    else if a = k then Memory.put a v m
    else (k, w) :: Memory.write m a v

/-- Addresses rise strictly from `lo` on, and no cell holds what an unlisted byte reads as. -/
def Memory.wfFrom : Nat → Memory → Bool
  | _, [] => true
  | lo, (k, v) :: m => decide (lo ≤ k) && v != Memory.blank && Memory.wfFrom (k + 1) m

/-- The canonical form. -/
def Memory.wf (m : Memory) : Bool := Memory.wfFrom 0 m

/-- The address of byte `i` of row `y` (20_memory.md R40, R42). Rows are at most 8191 bytes (00_scope.md
R9), so a stride of 8192 keeps the pairs apart (log 7). -/
def byteAddress (y i : Nat) : Nat := 8192 * y + i

/-- Every cell is byte `i` of row `y` for some `y < h`, `i < bpr` (20_memory.md R49). -/
def Memory.within (m : Memory) (h bpr : Nat) : Bool :=
  m.all (fun cell => decide (cell.1 / 8192 < h) && decide (cell.1 % 8192 < bpr))

/-- MemRead (00_scope.md R12). -/
def Memory.byteAt (m : Memory) (y i : Nat) : Byte := m.read (byteAddress y i)

/-- MemWrite (00_scope.md R12). -/
def Memory.setByte (m : Memory) (y i : Nat) (v : Byte) : Memory := m.write (byteAddress y i) v

/-- The pixel at (x, y): bit `x % 8` of byte `x / 8` of row `y` (20_memory.md R40). -/
def Memory.pixel (m : Memory) (x y : Nat) : Bool := (m.byteAt y (x / 8)).getLsbD (x % 8)

/-! ## Masks -/

/-- MASK_SET (20_memory.md R41). -/
def maskSet (b : Nat) : Byte := 1#8 <<< b

/-- MASK_CLEAR (20_memory.md R41). -/
def maskClear (b : Nat) : Byte := ~~~(1#8 <<< b)

/-- CAP: positions `k` and above (41_raster_runs.md R106). -/
def capMask (k : Nat) : Byte := 0xFF#8 <<< k

/-- SHIFT: positions below `k` (41_raster_runs.md R106). -/
def shiftMask (k : Nat) : Byte := 1#8 <<< k - 1#8

/-- The byte a colour fills (40_framebuffer.md R92, 41_raster_runs.md R101). -/
def fillByte (c : Bool) : Byte := if c then 0xFF else 0x00

/-! ## Drawing primitives -/

/-- SetBit: one pixel, no bounds check (40_framebuffer.md R94). -/
def Memory.setBit (m : Memory) (x y : Nat) (c : Bool) : Memory :=
  if c then m.setByte y (x / 8) (m.byteAt y (x / 8) ||| maskSet (x % 8))
  else m.setByte y (x / 8) (m.byteAt y (x / 8) &&& maskClear (x % 8))

/-- Apply: the pixels of one byte under a mask (41_raster_runs.md R108). -/
def Memory.applyMask (m : Memory) (y i : Nat) (mask : Byte) (c : Bool) : Memory :=
  if c then m.setByte y i (m.byteAt y i ||| mask)
  else m.setByte y i (m.byteAt y i &&& ~~~mask)

/-- `n` whole bytes from byte `i` on, each set to `v`. -/
def Memory.fillBytes (m : Memory) (y : Nat) : Nat → Nat → Byte → Memory
  | _, 0, _ => m
  | i, n + 1, v => Memory.fillBytes (m.setByte y i v) y (i + 1) n v

/-- The leading partial byte of a run that leaves byte `x / 8` (41_raster_runs.md R108). -/
def Memory.hRunLead (m : Memory) (x y : Nat) (c : Bool) : Memory :=
  if x % 8 ≠ 0 then m.applyMask y (x / 8) (capMask (x % 8)) c else m

/-- The trailing partial byte of a run that ends before pixel `stop` (41_raster_runs.md R108). -/
def Memory.hRunTrail (m : Memory) (stop y : Nat) (c : Bool) : Memory :=
  if stop % 8 ≠ 0 then m.applyMask y (stop / 8) (shiftMask (stop % 8)) c else m

/-- The first byte all of whose pixels lie at or after `x`. -/
def firstFull (x : Nat) : Nat := if x % 8 ≠ 0 then x / 8 + 1 else x / 8

/-- HRun: the byte-aligned run-masking algorithm (41_raster_runs.md R108). -/
def Memory.hRun (m : Memory) (x y len : Nat) (c : Bool) : Memory :=
  if len = 0 then m
  else if len < 8 - x % 8 then
    m.applyMask y (x / 8) (capMask (x % 8) &&& shiftMask (x % 8 + len)) c
  else
    ((m.hRunLead x y c).hRunTrail (x + len) y c).fillBytes y (firstFull x)
      ((x + len) / 8 - firstFull x) (fillByte c)

/-- VRun: `h` pixels of column `x` from row `y` down (41_raster_runs.md R111). -/
def Memory.vRun (m : Memory) (x y : Nat) : Nat → Bool → Memory
  | 0, _ => m
  | h + 1, c => Memory.vRun (m.setBit x y c) x (y + 1) h c

/-- SetBit for each of a list of pixels, in order. -/
def Memory.drawPixels (m : Memory) (pixels : List (Nat × Nat)) (c : Bool) : Memory :=
  pixels.foldl (fun m p => m.setBit p.1 p.2 c) m

/-! ## Rows -/

/-- BPR (00_scope.md R8). -/
def State.bpr (s : State) : Nat := s.width.toNat / 8

/-- `n` bytes of row `y` from byte `i` on. -/
def Memory.bytesFrom (m : Memory) (y : Nat) : Nat → Nat → List Byte
  | _, 0 => []
  | i, n + 1 => m.byteAt y i :: Memory.bytesFrom m y (i + 1) n

/-- Row(y): the bytes of row `y` in increasing index (00_scope.md R12, 20_memory.md R42). -/
def State.row (s : State) (y : Nat) : List Byte := s.fb.bytesFrom y 0 s.bpr

/-! ## How an operation ends -/

/-- One completed operation recorded: its result, and the frame it handed over (00_scope.md R15). -/
def State.record (s : State) (sent : Option Transmission) (r : Result) : State :=
  { s with trace := { sent := sent, result := r } :: s.trace }

/-- `return v` (00_scope.md R12): the state after success with value `v`. -/
def State.done (s : State) (v : Value) : State := s.record none (.ok v)

/-- `raise E`, taking an error: the result goes to the response port and nothing else changes
(60_exceptions.md R192); the next operation is accepted as if this one had not been issued (R193). -/
def State.failed (s : State) (e : ErrorKind) : State := s.record none (.error e)

/-- Success of a drawing operation that leaves the framebuffer `m`. -/
def State.drawn (s : State) (m : Memory) : State := State.done { s with fb := m } .nothing

/-- The status code of an error kind (30_encoding.md R76). -/
def ErrorKind.status : ErrorKind → Byte
  | .invalidDimensions => 0x01
  | .outOfBounds => 0x02
  | .truncated => 0x03
  | .transportError => 0x04
  | .illegalCommand => 0x05

/-- A 16-bit value in the byte order of the asset header (30_encoding.md R66, R76). -/
def littleEndian (v : U16) : List Byte := [v.setWidth 8, (v >>> 8).setWidth 8]

/-- The success value as the response carries it (30_encoding.md R76). -/
def Value.bytes : Value → List Byte
  | .nothing => []
  | .bit b => [if b then 0x01 else 0x00]
  | .row bytes => bytes
  | .texture width height rows => littleEndian width ++ littleEndian height ++ rows.flatten

/-- The bytes of a response: a status byte, then the success value (30_encoding.md R76). -/
def Result.bytes : Result → List Byte
  | .ok v => 0x00 :: v.bytes
  | .error e => [e.status]

/-- The frames handed to the Transport since reset, newest first (00_scope.md R15). -/
def State.frames (s : State) : List Transmission := s.trace.filterMap Completion.sent

end Sys2Proof.Machine
end

