-- ==== Sys2Proof/Machine/Operands.lean ====
section
/-! DEFINITION. What an operation does with its operands before it draws: bounds (41_raster_runs.md R100,
60_exceptions.md R187), the box of two corners (42_raster_shapes.md R120), the pixels of a line
(41_raster_runs.md R103), the columns of a glyph (43_glyphs.md R140), the rows of a payload
(30_encoding.md R75). -/

namespace Sys2Proof.Machine

/-! ## Bounds -/

/-- A Coordinate is in bounds (41_raster_runs.md R100). -/
abbrev State.InBounds (s : State) (x y : U16) : Prop :=
  x.toNat < s.width.toNat ∧ y.toNat < s.height.toNat

/-- HLINE's validation (41_raster_runs.md R107): origin in bounds, integer sum at most WIDTH. -/
abbrev State.HFits (s : State) (x y len : U16) : Prop :=
  s.InBounds x y ∧ x.toNat + len.toNat ≤ s.width.toNat

/-- VLINE's validation (41_raster_runs.md R110, R112): against HEIGHT, never WIDTH. -/
abbrev State.VFits (s : State) (x y h : U16) : Prop :=
  s.InBounds x y ∧ y.toNat + h.toNat ≤ s.height.toNat

/-- Both points of a line, both corners of a rectangle (41_raster_runs.md R103, 42_raster_shapes.md R120). -/
abbrev State.BothInBounds (s : State) (x1 y1 x2 y2 : U16) : Prop :=
  s.InBounds x1 y1 ∧ s.InBounds x2 y2

/-- PUTCH's validation: the whole 5 by 8 cell lies in the panel (43_glyphs.md R141). -/
abbrev State.CellFits (s : State) (x y : U16) : Prop :=
  s.InBounds x y ∧ x.toNat + 5 ≤ s.width.toNat ∧ y.toNat + 8 ≤ s.height.toNat

/-! ## Boxes -/

/-- `|a - b|` (00_scope.md R11). -/
def absDiff (a b : Nat) : Nat := (a - b) + (b - a)

/-- What RECT and FRECT use of their corners (42_raster_shapes.md R120). -/
structure Box where
  x0 : Nat
  y0 : Nat
  W : Nat
  H : Nat
  deriving DecidableEq, Repr

/-- The front part of RECT and FRECT (42_raster_shapes.md R120). -/
def boxOf (x1 y1 x2 y2 : U16) : Box :=
  { x0 := min x1.toNat x2.toNat, y0 := min y1.toNat y2.toNat, W := absDiff x2.toNat x1.toNat,
    H := absDiff y2.toNat y1.toNat }

/-- The four runs of RECT under HALF_OPEN (42_raster_shapes.md R122). -/
def Memory.outlineHalfOpen (m : Memory) (b : Box) (c : Bool) : Memory :=
  (((m.hRun b.x0 b.y0 (b.W - 1) c).vRun (b.x0 + b.W - 1) b.y0 (b.H - 1) c).hRun (b.x0 + 1)
    (b.y0 + b.H - 1) (b.W - 1) c).vRun b.x0 (b.y0 + 1) (b.H - 1) c

/-- The four runs of RECT under INCLUSIVE (42_raster_shapes.md R123). -/
def Memory.outlineInclusive (m : Memory) (b : Box) (c : Bool) : Memory :=
  (((m.hRun (b.x0 + 1) b.y0 (b.W - 1) c).hRun (b.x0 + 1) (b.y0 + b.H) (b.W - 1) c).vRun b.x0
    (b.y0 + 1) (b.H - 1) c).vRun (b.x0 + b.W) (b.y0 + 1) (b.H - 1) c

/-- One horizontal run of `len` pixels on each of `n` rows from row `y` down (42_raster_shapes.md R125). -/
def Memory.fillRows (m : Memory) (x len : Nat) (c : Bool) : Nat → Nat → Memory
  | _, 0 => m
  | y, n + 1 => Memory.fillRows (m.hRun x y len c) x len c (y + 1) n

/-! ## Lines -/

/-- The loop of LINE (41_raster_runs.md R103) over `n` more pixels: the major coordinate is a natural
number, the minor one and the error term are integers (R105: the update after the last pixel may leave
the panel and is never used). -/
def bresenham (dx dy ystep : Int) : Nat → Nat → Int → Int → List (Nat × Nat)
  | 0, _, _, _ => []
  | n + 1, x, y, err =>
    (x, y.toNat) ::
      if err - dy < 0 then bresenham dx dy ystep n (x + 1) (y + ystep) (err - dy + dx)
      else bresenham dx dy ystep n (x + 1) y (err - dy)

/-- The line from (x1, y1) to (x2, y2), `x1 ≤ x2`, by increasing major coordinate, both ends included. -/
def majorLine (x1 y1 x2 y2 : Nat) : List (Nat × Nat) :=
  bresenham (x2 - x1 : Nat) (absDiff y2 y1 : Nat) (if y1 < y2 then 1 else -1) (x2 - x1 + 1) x1 (y1 : Nat)
    ((x2 - x1) / 2 : Nat)

/-- The two points swapped when `x1 > x2` (41_raster_runs.md R103). -/
def orderedLine (x1 y1 x2 y2 : Nat) : List (Nat × Nat) :=
  if x1 > x2 then majorLine x2 y2 x1 y1 else majorLine x1 y1 x2 y2

/-- The pixels of LINE in the order they are set (41_raster_runs.md R103): components swapped on the way
in and back again on the way out when the line is steep. -/
def linePixels (x1 y1 x2 y2 : Nat) : List (Nat × Nat) :=
  if absDiff y2 y1 > absDiff x2 x1 then (orderedLine y1 x1 y2 x2).map Prod.swap
  else orderedLine x1 y1 x2 y2

/-! ## Glyphs -/

/-- FONT(code, col) (10_state.md R28). -/
def fontByte (cfg : Config) (code : Byte) (col : Fin 5) : Byte :=
  (cfg.font.get ⟨code.toNat, code.isLt⟩).get col

/-- One column of a cell: bit 0 of the column byte is the top pixel; a set bit is drawn in `c`, a clear
one in `not c` (43_glyphs.md R140, R141). -/
def Memory.drawColumn (m : Memory) (x y : Nat) (c : Bool) (line : Byte) : Memory :=
  [0, 1, 2, 3, 4, 5, 6, 7].foldl
    (fun m row => m.setBit x (y + row) (if line.getLsbD row then c else !c)) m

/-- The 40 pixels of a cell (43_glyphs.md R141). -/
def Memory.drawGlyph (m : Memory) (cfg : Config) (x y : Nat) (code : Byte) (c : Bool) : Memory :=
  ([0, 1, 2, 3, 4] : List (Fin 5)).foldl
    (fun m col => m.drawColumn (x + col.val) y c (fontByte cfg code col)) m

/-! ## Payloads -/

/-- A payload cut into `n` rows of `len` bytes (30_encoding.md R75, 45_asset_decoder.md R176). -/
def payloadRows (len : Nat) : Nat → List Byte → List (List Byte)
  | 0, _ => []
  | n + 1, bytes => bytes.take len :: payloadRows len n (bytes.drop len)

/-- The bytes of one texture row from byte column `i` on, those past `bpr` dropped (42_raster_shapes.md R130). -/
def Memory.blitRow (m : Memory) (y bpr : Nat) : Nat → List Byte → Memory
  | _, [] => m
  | i, v :: vs => Memory.blitRow (if i < bpr then m.setByte y i v else m) y bpr (i + 1) vs

/-- Texture rows from row `y` down, those at or past `h` dropped (42_raster_shapes.md R130). -/
def Memory.blitRows (m : Memory) (h bpr bc : Nat) : Nat → List (List Byte) → Memory
  | _, [] => m
  | y, r :: rs => if h ≤ y then m else Memory.blitRows (m.blitRow y bpr bc r) h bpr bc (y + 1) rs

end Sys2Proof.Machine
end

