-- ==== Sys2Proof/Machine/Asset.lean ====
section
/-! DEFINITION. TEXDEC (45_asset_decoder.md). -/

namespace Sys2Proof.Machine

/-- `ceil(width / 8)` (30_encoding.md R66). -/
def textureRowLength (width : Nat) : Nat := (width + 7) / 8

/-- A 16-bit header field, little-endian (30_encoding.md R66). -/
def headerField (lo hi : Byte) : U16 := BitVec.ofNat 16 (lo.toNat + 256 * hi.toNat)

/-- The AssetDecoder (45_asset_decoder.md R176, R177): bytes after the last row are ignored. -/
def decodeTexture : List Byte → Result
  | b0 :: b1 :: b2 :: b3 :: body =>
    if body.length < (headerField b2 b3).toNat * textureRowLength (headerField b0 b1).toNat then
      .error .truncated
    else
      .ok (.texture (headerField b0 b1) (headerField b2 b3)
        (payloadRows (textureRowLength (headerField b0 b1).toNat) (headerField b2 b3).toNat body))
  | _ => .error .truncated

/-- TEXDEC (45_asset_decoder.md R176): no state read or written. A payload of the wrong length is
`IllegalCommand` (92_eei_decisions.md D5, log 10). -/
def execTexdec (plen : BitVec 32) (bytes : List Byte) (s : State) : StepOutcome :=
  .next
    (if bytes.length = plen.toNat then s.record none (decodeTexture bytes)
    else s.failed .illegalCommand)

end Sys2Proof.Machine
end

