-- ==== Sys2Proof/Machine/Framebuffer.lean ====
section
/-! DEFINITION. GETPX, SETPX, FBCLR, ROWRD (40_framebuffer.md). -/

namespace Sys2Proof.Machine

/-- GETPX (40_framebuffer.md R90). -/
def execGetpx (x y : U16) (s : State) : StepOutcome :=
  .next (if s.InBounds x y then s.done (.bit (s.fb.pixel x.toNat y.toNat)) else s.failed .outOfBounds)

/-- SETPX (40_framebuffer.md R91). -/
def execSetpx (x y : U16) (c : Bool) (s : State) : StepOutcome :=
  .next (if s.InBounds x y then s.drawn (s.fb.setBit x.toNat y.toNat c) else s.failed .outOfBounds)

/-- Every byte of rows `y` to `y + n - 1` set to `v` (40_framebuffer.md R92). -/
def Memory.clearRows (m : Memory) (bpr : Nat) (v : Byte) : Nat → Nat → Memory
  | _, 0 => m
  | y, n + 1 => Memory.clearRows (m.fillBytes y 0 bpr v) bpr v (y + 1) n

/-- FBCLR (40_framebuffer.md R92). -/
def execFbclr (c : Bool) (s : State) : StepOutcome :=
  .next (s.drawn (s.fb.clearRows s.bpr (fillByte c) 0 s.height.toNat))

/-- ROWRD (40_framebuffer.md R93). -/
def execRowrd (y : U16) (s : State) : StepOutcome :=
  .next (if y.toNat < s.height.toNat then s.done (.row (s.row y.toNat)) else s.failed .outOfBounds)

end Sys2Proof.Machine
end

