-- ==== Sys2Proof/Machine/Glyphs.lean ====
section
/-! DEFINITION. PUTCH, PRSET, PRCH (43_glyphs.md). -/

namespace Sys2Proof.Machine

/-- PUTCH (43_glyphs.md R141). -/
def execPutch (x y : U16) (code : Byte) (c : Bool) (s : State) : StepOutcome :=
  .next
    (if s.CellFits x y then s.drawn (s.fb.drawGlyph s.cfg x.toNat y.toNat code c)
    else s.failed .outOfBounds)

/-- PRSET (43_glyphs.md R145). -/
def execPrset (x y : U16) (c : Bool) (s : State) : StepOutcome :=
  .next (State.done { s with pr := { set := true, x := x, y := y, color := c } } .nothing)

/-- The cursor advanced by the character pitch (43_glyphs.md R146). -/
def Printer.advance (p : Printer) : Printer := { p with x := p.x + 6 }

/-- PRCH (43_glyphs.md R146): PUTCH at the cursor, validation included, and the cursor advanced only if
it succeeded. -/
def execPrch (code : Byte) (s : State) : StepOutcome :=
  .next
    (if s.pr.set then
      if s.CellFits s.pr.x s.pr.y then
        State.drawn { s with pr := s.pr.advance }
          (s.fb.drawGlyph s.cfg s.pr.x.toNat s.pr.y.toNat code s.pr.color)
      else s.failed .outOfBounds
    else s.failed .illegalCommand)

end Sys2Proof.Machine
end

