-- ==== Sys2Proof/Machine/Lines.lean ====
section
/-! DEFINITION. LINE, HLINE, VLINE (41_raster_runs.md). -/

namespace Sys2Proof.Machine

/-- LINE (41_raster_runs.md R103). -/
def execLine (x1 y1 x2 y2 : U16) (c : Bool) (s : State) : StepOutcome :=
  .next
    (if s.BothInBounds x1 y1 x2 y2 then
      s.drawn (s.fb.drawPixels (linePixels x1.toNat y1.toNat x2.toNat y2.toNat) c)
    else s.failed .outOfBounds)

/-- HLINE (41_raster_runs.md R107). -/
def execHline (x y len : U16) (c : Bool) (s : State) : StepOutcome :=
  .next
    (if s.HFits x y len then s.drawn (s.fb.hRun x.toNat y.toNat len.toNat c)
    else s.failed .outOfBounds)

/-- VLINE (41_raster_runs.md R110). -/
def execVline (x y h : U16) (c : Bool) (s : State) : StepOutcome :=
  .next
    (if s.VFits x y h then s.drawn (s.fb.vRun x.toNat y.toNat h.toNat c)
    else s.failed .outOfBounds)

end Sys2Proof.Machine
end

