-- ==== Sys2Proof/Machine/Flags.lean ====
section
/-! DEFINITION. The block's one flag, VCOM (10_state.md R23), the frames that carry it (30_encoding.md
R60 to R64), and Send, the one place that inverts it (44_protocol.md R156). -/

namespace Sys2Proof.Machine

/-- A VCOM flag value as a byte (30_encoding.md R62). -/
def vcomByte (cfg : Config) (v : Bool) : Byte := if v then cfg.vcomBit else 0x00

/-- The command byte of a frame built now, before the inversion (30_encoding.md R62). -/
def State.commandByte (s : State) (cmd : Byte) : Byte := vcomByte s.cfg s.vcom ||| cmd

/-- The Clear frame (30_encoding.md R61). -/
def State.clearFrame (s : State) : List Byte := [s.commandByte s.cfg.clearCmd, 0x00]

/-- The line-number byte of row `y`, 1-based (30_encoding.md R63). -/
def lineNumber (y : Nat) : Byte := BitVec.ofNat 8 (y + 1)

/-- Rows `y` to `y + n - 1` as a full refresh carries them: line number, row bytes, trailer
(30_encoding.md R61, 44_protocol.md R161). -/
def State.frameRows (s : State) : Nat → Nat → List Byte
  | _, 0 => []
  | y, n + 1 => lineNumber y :: s.row y ++ 0x00 :: State.frameRows s (y + 1) n

/-- The Full refresh frame (30_encoding.md R61, 44_protocol.md R161). -/
def State.fullFrame (s : State) : List Byte :=
  s.commandByte s.cfg.writeCmd :: s.frameRows 0 s.height.toNat ++ [0x00]

/-- The Line refresh frame of row `n` (30_encoding.md R61, 44_protocol.md R162). -/
def State.lineFrame (s : State) (n : Nat) : List Byte :=
  s.commandByte s.cfg.writeCmd :: lineNumber n :: s.row n ++ [0x00, 0x00]

/-- The Transport will never answer the next write (60_exceptions.md R201). -/
def State.transportSilent (s : State) : Bool := s.replies.head? == some .silent

/-- The Transport answers `Ok` to the next write: the environment's next answer, or the free value when
none is ready (log 12). -/
def State.transportOk (s : State) : Bool :=
  match s.replies with
  | r :: _ => r == .ok
  | [] => Config.transportOk s.writes

/-- The state after TransportWrite has returned: `vcom` inverted, whatever the answer (44_protocol.md R156). -/
def State.transmitted (s : State) (frame : List Byte) : State :=
  State.record
    { s with vcom := !s.vcom, replies := s.replies.tail, writes := s.writes + 1 }
    (some { bytes := frame, ok := s.transportOk })
    (if s.transportOk then .ok .nothing else .error .transportError)

/-- Send (44_protocol.md R156). A Transport that never answers leaves no successor state
(60_exceptions.md R201). -/
def State.send (s : State) (frame : List Byte) : StepOutcome :=
  if s.transportSilent then .fault .transportHang else .next (s.transmitted frame)

end Sys2Proof.Machine
end

