-- ==== Sys2Proof/Machine/Protocol.lean ====
section
/-! DEFINITION. DCLR, RFSH, RFLN (44_protocol.md). -/

namespace Sys2Proof.Machine

/-- DCLR (44_protocol.md R160). -/
def execDclr (s : State) : StepOutcome := s.send s.clearFrame

/-- RFSH (44_protocol.md R161, R163). -/
def execRfsh (s : State) : StepOutcome :=
  if s.height.toNat ≤ 255 then s.send s.fullFrame else .next (s.failed .illegalCommand)

/-- RFLN (44_protocol.md R162, R163): out of bounds is found before a line number above 255
(60_exceptions.md R190). -/
def execRfln (n : U16) (s : State) : StepOutcome :=
  if n.toNat < s.height.toNat then
    if n.toNat + 1 ≤ 255 then s.send (s.lineFrame n.toNat) else .next (s.failed .illegalCommand)
  else .next (s.failed .outOfBounds)

end Sys2Proof.Machine
end

