-- ==== Sys2Proof/Machine/Shapes.lean ====
section
/-! DEFINITION. RECT, FRECT, TEXBLT (42_raster_shapes.md). -/

namespace Sys2Proof.Machine

/-- The outline of a box under either reading of RECT_EXTENT (42_raster_shapes.md R121). -/
def Memory.outline (m : Memory) (e : RectExtent) (b : Box) (c : Bool) : Memory :=
  match e with
  | .halfOpen => m.outlineHalfOpen b c
  | .inclusive => m.outlineInclusive b c

/-- The area of a box under either reading of RECT_EXTENT (42_raster_shapes.md R125, R126). -/
def Memory.fillBox (m : Memory) (e : RectExtent) (b : Box) (c : Bool) : Memory :=
  match e with
  | .halfOpen => m.fillRows b.x0 b.W c b.y0 b.H
  | .inclusive => m.fillRows b.x0 (b.W + 1) c b.y0 (b.H + 1)

/-- RECT (42_raster_shapes.md R121, R124). -/
def execRect (x1 y1 x2 y2 : U16) (c : Bool) (s : State) : StepOutcome :=
  .next
    (if s.BothInBounds x1 y1 x2 y2 then
      if (boxOf x1 y1 x2 y2).W = 0 ∨ (boxOf x1 y1 x2 y2).H = 0 then s.failed .outOfBounds
      else s.drawn (s.fb.outline s.cfg.rectExtent (boxOf x1 y1 x2 y2) c)
    else s.failed .outOfBounds)

/-- FRECT (42_raster_shapes.md R125, R126). -/
def execFrect (x1 y1 x2 y2 : U16) (c : Bool) (s : State) : StepOutcome :=
  .next
    (if s.BothInBounds x1 y1 x2 y2 then
      s.drawn (s.fb.fillBox s.cfg.rectExtent (boxOf x1 y1 x2 y2) c)
    else s.failed .outOfBounds)

/-- TEXBLT (42_raster_shapes.md R130). A payload of the wrong length is `IllegalCommand`
(92_eei_decisions.md D5, log 10). -/
def execTexblt (x y nrows rowlen : U16) (payload : List Byte) (s : State) : StepOutcome :=
  .next
    (if payload.length = nrows.toNat * rowlen.toNat then
      if s.InBounds x y then
        s.drawn (s.fb.blitRows s.height.toNat s.bpr (x.toNat / 8) y.toNat
          (payloadRows rowlen.toNat nrows.toNat payload))
      else s.failed .outOfBounds
    else s.failed .illegalCommand)

end Sys2Proof.Machine
end

