-- ==== Sys2Proof/Machine/Dispatch.lean ====
section
/-! DEFINITION. One arm per operation of 30_encoding.md R70. -/

namespace Sys2Proof.Machine

def exec (i : Instr) (s : State) : Host.Outcome State Fault Refusal :=
  match i with
  | .getpx x y => Sys2Proof.Machine.execGetpx x y s
  | .setpx x y c => Sys2Proof.Machine.execSetpx x y c s
  | .fbclr c => Sys2Proof.Machine.execFbclr c s
  | .rowrd y => Sys2Proof.Machine.execRowrd y s
  | .line x1 y1 x2 y2 c => Sys2Proof.Machine.execLine x1 y1 x2 y2 c s
  | .hline x y len c => Sys2Proof.Machine.execHline x y len c s
  | .vline x y h c => Sys2Proof.Machine.execVline x y h c s
  | .rect x1 y1 x2 y2 c => Sys2Proof.Machine.execRect x1 y1 x2 y2 c s
  | .frect x1 y1 x2 y2 c => Sys2Proof.Machine.execFrect x1 y1 x2 y2 c s
  | .texblt x y nrows rowlen payload => Sys2Proof.Machine.execTexblt x y nrows rowlen payload s
  | .putch x y code c => Sys2Proof.Machine.execPutch x y code c s
  | .prset x y c => Sys2Proof.Machine.execPrset x y c s
  | .prch code => Sys2Proof.Machine.execPrch code s
  | .dclr => Sys2Proof.Machine.execDclr s
  | .rfsh => Sys2Proof.Machine.execRfsh s
  | .rfln n => Sys2Proof.Machine.execRfln n s
  | .texdec plen bytes => Sys2Proof.Machine.execTexdec plen bytes s

end Sys2Proof.Machine
end

