-- ==== Sys2Proof/Machine/Step.lean ====
section
/-! DEFINITION. One step: the next operation on the command port, decoded and run to completion
(00_scope.md R13, R14; 60_exceptions.md R190). -/

namespace Sys2Proof.Machine

/-- One whole operation. An illegal descriptor completes at once with `IllegalCommand`, changes no state
and has no payload (30_encoding.md R77). With no descriptor presented there is no operation to run. -/
def step (s : State) : Host.Outcome State Fault Refusal :=
  match decode s.port with
  | .instr i rest => exec i { s with port := rest }
  | .illegal _ rest => .next (State.failed { s with port := rest } .illegalCommand)
  | .incomplete => .refused (if s.port = [] then .awaitingCommand else .incompleteDescriptor)

/-- The bytes of a word of the opcode table, its payload of zeros with them, presented before whatever
the command port holds (log 8). -/
def State.withFetchWord (s : State) (nbits w : Nat) : State :=
  { s with port := wordStream nbits w ++ s.port }

end Sys2Proof.Machine
end

