-- ==== Sys2Proof/Machine/Reset.lean ====
section
/-! DEFINITION. The reset procedure (70_reset_and_hazards.md R210 to R213). It is no operation. -/

namespace Sys2Proof.Machine

/-- Reset(width, height) (70_reset_and_hazards.md R210, R211). A failed reset gives no state: no block
exists (log 21). Nothing of an earlier block is kept (R213). -/
def State.construct (cfg : Config) (width height : U16) : Except ErrorKind State :=
  if width.toNat % 8 = 0 then .ok (State.fresh cfg width height) else .error .invalidDimensions

end Sys2Proof.Machine
end

