-- ==== Sys2Proof/Safety.lean ====
section
/-! DEFINITION. What claims are stated with: the invariant of the machine, the frame of an operation, the
footprint of a drawing, the run of a list of operations, the encoding of an operation, the texture asset
written out. Nothing here is used by `step`. -/

namespace Sys2Proof.Machine

/-! ## The invariant -/

/-- The VCOM flag when `k` frames have been handed over (44_protocol.md R157). -/
def vcomAfter (cfg : Config) (k : Nat) : Bool := xor cfg.vcomReset (k % 2 == 1)

/-- The frame is the k-th since reset: its command byte carries the VCOM bit of 44_protocol.md R157, its
last byte is 0x00 (30_encoding.md R60) and its length is one of 30_encoding.md R64. -/
def frameOk (cfg : Config) (height bpr k : Nat) (f : Transmission) : Bool :=
  (f.bytes.head? == some (vcomByte cfg (vcomAfter cfg k) ||| cfg.writeCmd)
      || f.bytes.head? == some (vcomByte cfg (vcomAfter cfg k) ||| cfg.clearCmd))
    && f.bytes.getLast? == some 0x00
    && (f.bytes.length == 2 || f.bytes.length == 2 + height * (bpr + 2) || f.bytes.length == bpr + 4)

/-- Every frame of a list, newest first, is the frame of its number. -/
def framesOk (cfg : Config) (height bpr : Nat) : List Transmission → Bool
  | [] => true
  | f :: fs => frameOk cfg height bpr fs.length f && framesOk cfg height bpr fs

/-- The invariant of the machine: WIDTH is a multiple of 8 (20_memory.md R45), the framebuffer keeps its
canonical form and holds nothing outside the panel (R49), the command constants are legal (30_encoding.md
R65), the VCOM flag is the parity of the writes (44_protocol.md R157), and the frames handed over are as
many as the writes and of the right form. -/
abbrev State.Inv (s : State) : Prop :=
  s.width.toNat % 8 = 0 ∧ s.fb.wf = true ∧ s.fb.within s.height.toNat s.bpr = true
    ∧ s.cfg.legal = true ∧ s.vcom = vcomAfter s.cfg s.writes ∧ s.frames.length = s.writes
    ∧ framesOk s.cfg s.height.toNat s.bpr s.frames = true

/-! ## Frames and footprints -/

/-- The state after an operation that answered `r` and changed nothing (60_exceptions.md R192). -/
def State.answering (s : State) (r : Result) : State :=
  { s with trace := { sent := none, result := r } :: s.trace }

/-- The state after an operation that succeeded, changed the framebuffer to `m`, and nothing else. -/
def State.redrawn (s : State) (m : Memory) : State :=
  { s with fb := m, trace := { sent := none, result := .ok .nothing } :: s.trace }

/-- `m'` is `m` with the pixels of the footprint `P` in colour `c` and every other pixel as it was. Every
byte of the address space is eight of these pixels (20_memory.md R40; rows are at most 65536 pixels). -/
def Painted (m m' : Memory) (P : Nat → Nat → Prop) (c : Bool) : Prop :=
  ∀ x y, x < 65536 → (P x y → m'.pixel x y = c) ∧ (¬ P x y → m'.pixel x y = m.pixel x y)

/-- The operation completes, paints the footprint, keeps the canonical form, and changes nothing else. -/
def Paints (i : Instr) (s : State) (P : Nat → Nat → Prop) (c : Bool) : Prop :=
  ∃ m, exec i s = .next (s.redrawn m) ∧ m.wf = true ∧ Painted s.fb m P c

/-- The operation completes with an error and changes nothing. -/
def FailsWith (i : Instr) (s : State) (e : ErrorKind) : Prop :=
  exec i s = .next (s.answering (.error e))

/-- The state after one Transport write of `frame` that was answered `Ok` (`ok = true`) or `Err`: the
flag inverted, one answer used, the frame, the answer and the result recorded, and nothing else changed
(44_protocol.md R156, 60_exceptions.md R196). -/
def State.afterWrite (s : State) (frame : List Byte) (ok : Bool) : State :=
  { s with
    vcom := !s.vcom, replies := s.replies.tail, writes := s.writes + 1,
    trace := { sent := some { bytes := frame, ok := ok },
               result := if ok then .ok .nothing else .error .transportError } :: s.trace }

/-- The operation hands `frame` to the Transport and completes with its answer, which is the
environment's next one when it has one ready, and any when it has none (60_exceptions.md R201). -/
def Sends (i : Instr) (s : State) (frame : List Byte) : Prop :=
  ∃ ok, (s.replies.head? = some .ok → ok = true) ∧ (s.replies.head? = some .err → ok = false)
    ∧ exec i s = .next (s.afterWrite frame ok)

/-- The command byte of a frame: the VCOM bit as the flag stands, and the command (30_encoding.md R62). -/
def commandByteOf (s : State) (cmd : Byte) : Byte := (if s.vcom then s.cfg.vcomBit else 0x00) ||| cmd

/-- The bytes of row `y` in increasing index (20_memory.md R42). -/
def rowBytes (s : State) (y : Nat) : List Byte :=
  (List.range s.bpr).map (fun i => s.fb.byteAt y i)

/-- The operations one after the other, each on the state the one before it left (00_scope.md R7). -/
def execAll : List Instr → State → StepOutcome
  | [], s => .next s
  | i :: is, s =>
    match exec i s with
    | .next t => execAll is t
    | .fault r => .fault r
    | .refused r => .refused r

/-- The operations that hand a frame to the Transport (60_exceptions.md R200). -/
def Transmits : Instr → Bool
  | .dclr | .rfsh | .rfln _ => true
  | .getpx _ _ | .setpx _ _ _ | .fbclr _ | .rowrd _ | .line _ _ _ _ _ | .hline _ _ _ _
  | .vline _ _ _ _ | .rect _ _ _ _ _ | .frect _ _ _ _ _ | .texblt _ _ _ _ _ | .putch _ _ _ _
  | .prset _ _ _ | .prch _ | .texdec _ _ => false

/-- The operations that write the framebuffer (10_state.md R30). -/
def WritesFramebuffer : Instr → Bool
  | .setpx _ _ _ | .fbclr _ | .line _ _ _ _ _ | .hline _ _ _ _ | .vline _ _ _ _ | .rect _ _ _ _ _
  | .frect _ _ _ _ _ | .texblt _ _ _ _ _ | .putch _ _ _ _ | .prch _ => true
  | .getpx _ _ | .rowrd _ | .prset _ _ _ | .dclr | .rfsh | .rfln _ | .texdec _ _ => false

/-- The operations that write the Printer registers (10_state.md R25, R30). -/
def WritesPrinter : Instr → Bool
  | .prset _ _ _ | .prch _ => true
  | .getpx _ _ | .setpx _ _ _ | .fbclr _ | .rowrd _ | .line _ _ _ _ _ | .hline _ _ _ _
  | .vline _ _ _ _ | .rect _ _ _ _ _ | .frect _ _ _ _ _ | .texblt _ _ _ _ _ | .putch _ _ _ _
  | .dclr | .rfsh | .rfln _ | .texdec _ _ => false

/-- The drawing operations that 20_memory.md R47 and 42_raster_shapes.md R131 call idempotent. -/
def Idempotent : Instr → Bool
  | .setpx _ _ _ | .fbclr _ | .line _ _ _ _ _ | .hline _ _ _ _ | .vline _ _ _ _ | .rect _ _ _ _ _
  | .frect _ _ _ _ _ | .texblt _ _ _ _ _ | .putch _ _ _ _ => true
  | .getpx _ _ | .rowrd _ | .prset _ _ _ | .prch _ | .dclr | .rfsh | .rfln _ | .texdec _ _ => false

/-- A point outside the panel (60_exceptions.md R187). -/
def OutOfPanel (s : State) (x y : U16) : Prop := s.width.toNat ≤ x.toNat ∨ s.height.toNat ≤ y.toNat

/-- A 5 by 8 cell not all of which lies in the panel (60_exceptions.md R187). -/
def CellOutOfPanel (s : State) (x y : U16) : Prop :=
  OutOfPanel s x y ∨ s.width.toNat < x.toNat + 5 ∨ s.height.toNat < y.toNat + 8

/-- The table of 60_exceptions.md R187: the condition on which an operation may raise OutOfBounds. -/
def OutOfBoundsFor (i : Instr) (s : State) : Prop :=
  match i with
  | .getpx x y | .setpx x y _ => OutOfPanel s x y
  | .rowrd y => s.height.toNat ≤ y.toNat
  | .line x1 y1 x2 y2 _ | .frect x1 y1 x2 y2 _ => OutOfPanel s x1 y1 ∨ OutOfPanel s x2 y2
  | .hline x y len _ => OutOfPanel s x y ∨ s.width.toNat < x.toNat + len.toNat
  | .vline x y h _ => OutOfPanel s x y ∨ s.height.toNat < y.toNat + h.toNat
  | .rect x1 y1 x2 y2 _ => OutOfPanel s x1 y1 ∨ OutOfPanel s x2 y2 ∨ x1 = x2 ∨ y1 = y2
  | .texblt x y _ _ _ => OutOfPanel s x y
  | .putch x y _ _ => CellOutOfPanel s x y
  | .prch _ => CellOutOfPanel s s.pr.x s.pr.y
  | .rfln n => s.height.toNat ≤ n.toNat
  | .fbclr _ | .prset _ _ _ | .dclr | .rfsh | .texdec _ _ => False

/-- The condition on which an operation may raise IllegalCommand: PRCH before PRSET, a line number above
255 (60_exceptions.md R189), a payload of the wrong length (log 10). An illegal descriptor is no
operation. -/
def IllegalFor (i : Instr) (s : State) : Prop :=
  match i with
  | .prch _ => s.pr.set = false
  | .rfsh => 255 < s.height.toNat
  | .rfln n => n.toNat < s.height.toNat ∧ 255 < n.toNat + 1
  | .texblt _ _ nrows rowlen payload => payload.length ≠ nrows.toNat * rowlen.toNat
  | .texdec plen bytes => bytes.length ≠ plen.toNat
  | .getpx _ _ | .setpx _ _ _ | .fbclr _ | .rowrd _ | .line _ _ _ _ _ | .hline _ _ _ _
  | .vline _ _ _ _ | .rect _ _ _ _ _ | .frect _ _ _ _ _ | .putch _ _ _ _ | .prset _ _ _
  | .dclr => False

/-- The Transport answers the next write, `Ok` or `Err` (60_exceptions.md R201). -/
abbrev State.TransportAnswers (s : State) : Prop := s.replies.head? ≠ some .silent

/-- The pixel lies on the closed border of the box (42_raster_shapes.md R122). -/
def OnBorder (x0 y0 w h x y : Nat) : Prop :=
  (x0 ≤ x ∧ x < x0 + w ∧ y0 ≤ y ∧ y < y0 + h)
    ∧ (x = x0 ∨ x + 1 = x0 + w ∨ y = y0 ∨ y + 1 = y0 + h)

/-- The minor offset of a line after `k` steps of its major coordinate (41_raster_runs.md R103): the
error term starts at `dx / 2`, so the offset is `k * dy / dx` rounded to the nearest integer, halves
down. -/
def lineOffset (dx dy k : Nat) : Nat := (k * dy + (dx - 1) / 2) / dx

/-! ## Encodings -/

/-- The descriptor, followed by the operation's payload, decodes to the operation, whatever follows. -/
def EncodedAs (i : Instr) (d : Descriptor) : Prop :=
  ∀ rest, decode (d.toBytes ++ i.payload ++ rest) = .instr i rest

/-- A texture asset written out: the inverse of TEXDEC (45_asset_decoder.md R178). The block has no such
operation. -/
def encodeAsset (width height : U16) (rows : List (List Byte)) : List Byte :=
  littleEndian width ++ littleEndian height ++ rows.flatten

end Sys2Proof.Machine
end

