-- ==== Sys2Proof/Certificates/Slice0/Obligations.lean ====
section
/-! DEFINITION. The statements about the display core, from the numbered rules of spec/. -/

open Sys2Proof Sys2Proof.Machine

/-! ## Reset and the whole machine -/

/-- R210, R211, R212: a reset with a width that is a multiple of 8 leaves every framebuffer byte 0xFF, the
VCOM flag at VCOM_RESET, no Printer, the given configuration, and has sent nothing; every GETPX in bounds
answers 1. Any other width fails with InvalidDimensions, and nothing else does. Rests on the spec's own
decisions D9, D20, D25, D26. -/
def Obligations.ConstructLeavesResetState : Prop :=
  ∀ (cfg : Config) (w h : U16),
    (w.toNat % 8 = 0 →
      ∃ s, State.construct cfg w h = .ok s ∧ s.width = w ∧ s.height = h ∧ s.cfg = cfg
        ∧ (∀ y i, s.fb.byteAt y i = 0xFF) ∧ s.vcom = cfg.vcomReset ∧ s.pr.set = false
        ∧ s.trace = [] ∧ s.writes = 0
        ∧ ∀ x y : U16, x.toNat < w.toNat → y.toNat < h.toNat →
            exec (.getpx x y) s = .next (s.answering (.ok (.bit true))))
    ∧ (w.toNat % 8 ≠ 0 → State.construct cfg w h = .error .invalidDimensions)

/-- Every successful reset with legal command constants meets the invariant; so does `State.reset`, whose
two arguments and parameters are the model's choice (log 1, log 3, log 4, log 5, log 6). -/
def Obligations.ResetMeetsInvariant : Prop :=
  State.reset.Inv
    ∧ ∀ (cfg : Config) (w h : U16) (s : State),
        cfg.legal = true → State.construct cfg w h = .ok s → s.Inv

/-- Every step keeps the invariant: the framebuffer canonical and inside the panel, WIDTH a multiple of 8, the
VCOM flag the parity of the writes, every frame handed over of its number's polarity and of a legal length.
The parity clause is the spec's own inference R157; the command byte rests on its decisions D8 and D10 (log
17), the inversion after an Err on log 16. -/
def Obligations.StepKeepsInvariant : Prop :=
  ∀ s t : State, s.Inv → step s = .next t → t.Inv

/-- R185: an operation always completes with exactly one result, success or one error kind, provided the
Transport answers the write of an operation that makes one. Rests on the spec's own decision D22 and on log 10
and log 12. -/
def Obligations.EveryOperationEndsInOneResult : Prop :=
  ∀ (i : Instr) (s : State), (Transmits i = false ∨ s.TransportAnswers) →
    ∃ t sent r, exec i s = .next t ∧ t.trace = { sent := sent, result := r } :: s.trace

/-- R201: only a Transport that never answers stops an operation, and then the operation has no successor
state. No operation is refused. Rests on the spec's own decision D22 and on log 13. -/
def Obligations.OnlyASilentTransportStops : Prop :=
  (∀ (i : Instr) (s : State) (r : Refusal), exec i s ≠ .refused r)
    ∧ (∀ (i : Instr) (s : State) (f : Fault), exec i s = .fault f →
        Transmits i = true ∧ s.replies.head? = some .silent ∧ f = .transportHang)
    ∧ (∀ s : State, s.replies.head? = some .silent →
        exec .dclr s = .fault .transportHang
        ∧ (s.height.toNat ≤ 255 → exec .rfsh s = .fault .transportHang)
        ∧ ∀ n : U16, n.toNat < s.height.toNat → n.toNat < 255 →
            exec (.rfln n) s = .fault .transportHang)

/-- R192: an error leaves the framebuffer and the Printer as they were and records nothing but its result;
only TransportError changes anything, and that is the VCOM flag. That RFLN's OutOfBounds keeps the flag is the
spec's own decision D11 (log 17); that an Err inverts it is log 16. -/
def Obligations.ErrorsArePrecise : Prop :=
  ∀ (i : Instr) (s t : State) (sent : Option Transmission) (e : ErrorKind),
    exec i s = .next t → t.trace.head? = some { sent := sent, result := .error e } →
      t.fb = s.fb ∧ t.pr = s.pr ∧ t.width = s.width ∧ t.height = s.height ∧ t.cfg = s.cfg
      ∧ (e ≠ .transportError → t = s.answering (.error e))
      ∧ (e = .transportError → t.vcom = !s.vcom)

/-- Which operation raises which error kind, and on what condition: no operation raises InvalidDimensions
(R186); OutOfBounds is raised only where the table of R187 says, so never by FBCLR, PRSET, DCLR, RFSH or
TEXDEC; Truncated is TEXDEC's alone (R188); TransportError is a protocol operation's whose frame the Transport
refused (R196); IllegalCommand is PRCH's without a Printer and RFSH's and RFLN's above line 255 (R189), and
that of a payload of the wrong length (log 10). Rests on the spec's own decisions D4, D5, D12, D13, D16, D20,
D21 and D24 (log 11, log 17). -/
def Obligations.ErrorKindsBelongToTheirOperations : Prop :=
  ∀ (i : Instr) (s t : State) (sent : Option Transmission) (e : ErrorKind),
    exec i s = .next t → t.trace.head? = some { sent := sent, result := .error e } →
      e ≠ .invalidDimensions
      ∧ (e = .outOfBounds → OutOfBoundsFor i s)
      ∧ (e = .truncated → ∃ plen bytes, i = .texdec plen bytes)
      ∧ (e = .illegalCommand → IllegalFor i s)
      ∧ (e = .transportError → Transmits i = true ∧ ∃ f, sent = some { bytes := f, ok := false })

/-- The access table of R30: only drawing operations write the framebuffer, only PRSET and PRCH the Printer,
only protocol operations the flag and the Transport's side; none the configuration. R30 is the spec's own
inference. -/
def Obligations.OperationsWriteOnlyWhatTheyMay : Prop :=
  ∀ (i : Instr) (s t : State), exec i s = .next t →
    t.width = s.width ∧ t.height = s.height ∧ t.cfg = s.cfg ∧ t.port = s.port
    ∧ (WritesFramebuffer i = false → t.fb = s.fb)
    ∧ (WritesPrinter i = false → t.pr = s.pr)
    ∧ (Transmits i = false →
        t.vcom = s.vcom ∧ t.replies = s.replies ∧ t.writes = s.writes ∧ t.frames = s.frames)

/-- No operation reads what an earlier one answered (R26): with another trace the same operation changes
the rest of the state alike and answers alike. -/
def Obligations.OperationsDoNotReadTheTrace : Prop :=
  ∀ (i : Instr) (s t : State) (tr : List Completion), exec i s = .next t →
    ∃ c, t.trace = c :: s.trace ∧ exec i { s with trace := tr } = .next { t with trace := c :: tr }

/-- The VCOM flag is read and written by the protocol operations only (R23): every other operation does
the same, and answers the same, whatever the flag is, and leaves it. -/
def Obligations.OnlyProtocolOperationsSeeVcom : Prop :=
  ∀ (i : Instr) (s t : State) (v : Bool), Transmits i = false → exec i s = .next t →
    exec i { s with vcom := v } = .next { t with vcom := v }

/-! ## Encoding and stepping -/

/-- Decoding the encoding of a well-formed operation gives it back, with every operand at every value, and
leaves the bytes behind it. The encoding is the spec's own (decisions D2, D3, D28). -/
def Obligations.DecodeOfEncodeIsTheOperation : Prop :=
  ∀ (i : Instr) (rest : List Byte), i.WellFormed → decode (encode i ++ rest) = .instr i rest

/-- What decodes to an operation is its encoding followed by the rest: an operation has one encoding. The
encoding is the spec's own (decisions D2, D3, D28). For a payload cut short, where the spec gives no encoding
(R75), it is the model's reading, log 10: the operation then carries what there is of the payload, and nothing
is left. -/
def Obligations.DecodedBytesAreTheEncoding : Prop :=
  ∀ (bs rest : List Byte) (i : Instr), decode bs = .instr i rest → bs = encode i ++ rest

/-- R74: a descriptor selects an operation iff its word matches that row of the opcode table under the row's
mask, and one that matches no row is illegal. The encoding is the spec's own (decisions D3, D5). -/
def Obligations.DecoderFollowsMatchAndMask : Prop :=
  ∀ (d : Descriptor) (rest : List Byte),
    (∀ k, d.select = .ok k ↔
      ∃ row ∈ opcodeTable, row.opcode = k ∧ d.word &&& row.mask = row.pattern)
    ∧ ((∃ why r, decode (d.toBytes ++ rest) = .illegal why r) ↔
        ∀ row ∈ opcodeTable, d.word &&& row.mask ≠ row.pattern)

/-- No descriptor word matches two rows of the opcode table. The encoding is the spec's own (decision D3). -/
def Obligations.OpcodeRowsDoNotOverlap : Prop :=
  ∀ w : BitVec 80, opcodeTable.Pairwise (fun a b => ¬ (w &&& a.mask = a.pattern ∧ w &&& b.mask = b.pattern))

/-- Words written out in the spec's test programs decode to the operations they stand for, one or more of each
unit. The encoding is the spec's own (decisions D2, D3). -/
def Obligations.SpecWordsDecode : Prop :=
  decode [0x01, 0, 0x09, 0, 0x03, 0, 0, 0, 0, 0] = .instr (.getpx 9 3) []
  ∧ decode [0x11, 0, 0x03, 0, 0x03, 0, 0x05, 0, 0, 0] = .instr (.hline 3 3 5 false) []
  ∧ decode [0x13, 0, 0x01, 0, 0x01, 0, 0x0A, 0, 0x06, 0] = .instr (.rect 1 1 10 6 false) []
  ∧ decode [0x15, 0, 0x08, 0, 0x09, 0, 0x02, 0, 0x02, 0, 0x0F, 0xF0, 0x55, 0xAA]
      = .instr (.texblt 8 9 2 2 [0x0F, 0xF0, 0x55, 0xAA]) []
  ∧ decode [0x19, 0, 0, 0, 0, 0, 0x41, 0, 0, 0] = .instr (.prch 0x41) []
  ∧ decode [0x22, 0, 0, 0, 0x03, 0, 0, 0, 0, 0] = .instr (.rfln 3) []

/-- R77: an illegal descriptor completes at once with IllegalCommand, changes no state, sends nothing, and the
next ten bytes are the next descriptor. It is illegal when the opcode is none of the seventeen, when the
reserved bits are not 0, or when a field the operation does not use is not 0. Rests on the spec's own decision
D5 (log 11). -/
def Obligations.IllegalDescriptorChangesNothing : Prop :=
  ∀ (s : State) (d : Descriptor) (rest : List Byte),
    s.port = d.toBytes ++ rest →
    (opcodeOf d.op = none ∨ d.rsv ≠ 0
      ∨ ∃ k, opcodeOf d.op = some k ∧ d.unusedZero k.fields = false) →
    step s = .next (State.answering { s with port := rest } (.error .illegalCommand))

/-- When the bytes on the command port decode to an operation, a step takes them from the port and is `exec`
of that operation. The command port is the spec's own decision D1. -/
def Obligations.StepRunsTheDecodedOperation : Prop :=
  ∀ (s : State) (i : Instr) (rest : List Byte),
    decode s.port = .instr i rest → step s = exec i { s with port := rest }

/-- The model's choice (log 9): with fewer than ten bytes presented there is no operation to run, and a
step is refused by name. -/
def Obligations.StepWaitsForADescriptor : Prop :=
  ∀ s : State, s.port.length < 10 →
    step s = .refused (if s.port = [] then .awaitingCommand else .incompleteDescriptor)

/-- A completed step has taken exactly one command off the port, so that what is left is the rest its decoder
names, ten bytes at least, and has recorded exactly one completion. The ports are the spec's own decision D1;
that an illegal descriptor is a step is log 11, and that a payload cut short is taken whole is log 10. -/
def Obligations.StepTakesOneCommandAndAnswersOnce : Prop :=
  ∀ s t : State, step s = .next t →
    ((∃ i, decode s.port = .instr i t.port) ∨ ∃ why, decode s.port = .illegal why t.port)
      ∧ t.port.length + 10 ≤ s.port.length ∧ ∃ c, t.trace = c :: s.trace

/-- A program is executed strictly in the order issued (R7, R48): as many steps as there are operations on the
port run exactly those operations, one after the other, and use up their bytes. The word program is the spec's
own (decision D6). That the whole program stands on the port at once is the model's choice, log 8: the host of
R71 presents each command after the response to the one before it. -/
def Obligations.ProgramRunsInOrderIssued : Prop :=
  ∀ (is : List Instr) (s : State), (∀ i ∈ is, i.WellFormed) → s.port = is.flatMap encode →
    Host.Core.run Sys2Proof.core is.length s = execAll is { s with port := [] }

/-! ## Framebuffer operations -/

/-- R90: GETPX. -/
def Obligations.GetpxReadsThePixel : Prop :=
  ∀ (s : State) (x y : U16),
    EncodedAs (.getpx x y) ⟨0x01, false, 0, x, y, 0, 0⟩
    ∧ (x.toNat < s.width.toNat ∧ y.toNat < s.height.toNat →
        exec (.getpx x y) s = .next (s.answering
          (.ok (.bit ((s.fb.byteAt y.toNat (x.toNat / 8) >>> (x.toNat % 8)) &&& 1 == 1)))))
    ∧ (¬ (x.toNat < s.width.toNat ∧ y.toNat < s.height.toNat) → FailsWith (.getpx x y) s .outOfBounds)

/-- R91: SETPX changes one pixel, and GETPX then reads the colour; setting a pixel to the value it has
changes nothing. -/
def Obligations.SetpxWritesOnePixel : Prop :=
  ∀ (s : State) (x y : U16) (c : Bool), s.fb.wf = true →
    EncodedAs (.setpx x y c) ⟨0x02, c, 0, x, y, 0, 0⟩
    ∧ (x.toNat < s.width.toNat ∧ y.toNat < s.height.toNat →
        Paints (.setpx x y c) s (fun px py => px = x.toNat ∧ py = y.toNat) c
        ∧ (∃ t, exec (.setpx x y c) s = .next t
            ∧ exec (.getpx x y) t = .next (t.answering (.ok (.bit c))))
        ∧ (s.fb.pixel x.toNat y.toNat = c → exec (.setpx x y c) s = .next (s.redrawn s.fb)))
    ∧ (¬ (x.toNat < s.width.toNat ∧ y.toNat < s.height.toNat) →
        FailsWith (.setpx x y c) s .outOfBounds)

/-- R92: FBCLR sets every byte of the panel to 0xFF or 0x00 and nothing else; FBCLR 1 restores the reset
contents. Which byte a colour fills is the spec's own inference. -/
def Obligations.FbclrFillsTheFramebuffer : Prop :=
  ∀ (s : State) (c : Bool), s.fb.wf = true →
    EncodedAs (.fbclr c) ⟨0x03, c, 0, 0, 0, 0, 0⟩
    ∧ ∃ m, exec (.fbclr c) s = .next (s.redrawn m) ∧ m.wf = true
      ∧ (∀ y i, i < 8192 → m.byteAt y i =
          if y < s.height.toNat ∧ i < s.bpr then (if c then 0xFF else 0x00) else s.fb.byteAt y i)
      ∧ (s.fb.within s.height.toNat s.bpr = true → c = true → m = [])

/-- R93: ROWRD returns the bytes of the row in increasing index and writes nothing. OutOfBounds is the spec's
own decision D24. -/
def Obligations.RowrdReturnsTheRow : Prop :=
  ∀ (s : State) (y : U16),
    EncodedAs (.rowrd y) ⟨0x04, false, 0, 0, y, 0, 0⟩
    ∧ (y.toNat < s.height.toNat →
        exec (.rowrd y) s = .next (s.answering (.ok (.row (rowBytes s y.toNat)))))
    ∧ (¬ y.toNat < s.height.toNat → FailsWith (.rowrd y) s .outOfBounds)

/-! ## Lines and runs -/

/-- R103: LINE paints the pixels of the integer Bresenham loop, all of which lie in the panel when both
endpoints do. That both ends are drawn is the spec's own decision D14. -/
def Obligations.LinePaintsBresenhamPixels : Prop :=
  ∀ (s : State) (x1 y1 x2 y2 : U16) (c : Bool), s.fb.wf = true →
    EncodedAs (.line x1 y1 x2 y2 c) ⟨0x10, c, 0, x1, y1, x2, y2⟩
    ∧ (s.InBounds x1 y1 ∧ s.InBounds x2 y2 →
        Paints (.line x1 y1 x2 y2 c) s
          (fun x y => (x, y) ∈ linePixels x1.toNat y1.toNat x2.toNat y2.toNat) c
        ∧ ∀ p ∈ linePixels x1.toNat y1.toNat x2.toNat y2.toNat,
            p.1 < s.width.toNat ∧ p.2 < s.height.toNat)
    ∧ (¬ (s.InBounds x1 y1 ∧ s.InBounds x2 y2) → FailsWith (.line x1 y1 x2 y2 c) s .outOfBounds)

/-- The Bresenham loop of R103 computes the rounded line: pixel k of the major coordinate lies `lineOffset dx
dy k` away from the first point in the minor one. The three clauses reach every pair of endpoints. That both
ends are drawn is the spec's own decision D14. -/
def Obligations.LinePixelsAreTheRoundedLine : Prop :=
  ∀ x1 y1 x2 y2 : Nat,
    (x1 ≤ x2 → absDiff y2 y1 ≤ x2 - x1 →
      linePixels x1 y1 x2 y2 = (List.range (x2 - x1 + 1)).map (fun k =>
        (x1 + k,
          if y1 < y2 then y1 + lineOffset (x2 - x1) (absDiff y2 y1) k
          else y1 - lineOffset (x2 - x1) (absDiff y2 y1) k)))
    ∧ linePixels x2 y2 x1 y1 = linePixels x1 y1 x2 y2
    ∧ (absDiff y2 y1 < absDiff x2 x1 →
        linePixels y1 x1 y2 x2 = (linePixels x1 y1 x2 y2).map Prod.swap)

/-- R104: the footprint of a line has one pixel per value of the major coordinate, is 8-connected, holds both
endpoints, does not depend on the order of the endpoints, and is a point, a horizontal run, a vertical run or
a diagonal where it should be. R104 is the spec's own inference. -/
def Obligations.LineFootprintProperties : Prop :=
  ∀ x1 y1 x2 y2 : Nat,
    (linePixels x1 y1 x2 y2).length = max (absDiff x2 x1) (absDiff y2 y1) + 1
    ∧ (∀ (k : Nat) (p q : Nat × Nat), (linePixels x1 y1 x2 y2)[k]? = some p →
        (linePixels x1 y1 x2 y2)[k + 1]? = some q →
          (if absDiff y2 y1 > absDiff x2 x1 then q.2 = p.2 + 1 ∧ absDiff q.1 p.1 ≤ 1
            else q.1 = p.1 + 1 ∧ absDiff q.2 p.2 ≤ 1)
          ∧ (absDiff y2 y1 = absDiff x2 x1 → absDiff q.2 p.2 = 1))
    ∧ (x1, y1) ∈ linePixels x1 y1 x2 y2 ∧ (x2, y2) ∈ linePixels x1 y1 x2 y2
    ∧ linePixels x1 y1 x2 y2 = linePixels x2 y2 x1 y1
    ∧ linePixels x1 y1 x1 y1 = [(x1, y1)]
    ∧ (∀ x y, (x, y) ∈ linePixels x1 y1 x2 y1 ↔ y = y1 ∧ min x1 x2 ≤ x ∧ x ≤ max x1 x2)
    ∧ (∀ x y, (x, y) ∈ linePixels x1 y1 x1 y2 ↔ x = x1 ∧ min y1 y2 ≤ y ∧ y ≤ max y1 y2)

/-- R107, R109: HLINE paints exactly the run, byte masks and all, and leaves the framebuffer an equivalent
sequence of SETPX leaves; an empty run paints nothing; the origin is checked even then, and the extent is an
integer sum. Rests on the spec's own decisions D12 and D13. -/
def Obligations.HlinePaintsTheRun : Prop :=
  ∀ (s : State) (x y len : U16) (c : Bool), s.fb.wf = true →
    EncodedAs (.hline x y len c) ⟨0x11, c, 0, x, y, len, 0⟩
    ∧ (s.InBounds x y ∧ x.toNat + len.toNat ≤ s.width.toNat →
        Paints (.hline x y len c) s
          (fun px py => py = y.toNat ∧ x.toNat ≤ px ∧ px < x.toNat + len.toNat) c
        ∧ ∃ t u, exec (.hline x y len c) s = .next t
          ∧ execAll ((List.range len.toNat).map (fun k => .setpx (BitVec.ofNat 16 (x.toNat + k)) y c)) s
              = .next u
          ∧ u.fb = t.fb)
    ∧ (¬ (s.InBounds x y ∧ x.toNat + len.toNat ≤ s.width.toNat) →
        FailsWith (.hline x y len c) s .outOfBounds)

/-- R110, R112: VLINE paints exactly the column and leaves the framebuffer a loop of SETPX leaves; its extent
is checked against HEIGHT, whatever WIDTH is. The check of the origin of an empty run is the spec's own
decision D13. -/
def Obligations.VlinePaintsTheColumn : Prop :=
  ∀ (s : State) (x y h : U16) (c : Bool), s.fb.wf = true →
    EncodedAs (.vline x y h c) ⟨0x12, c, 0, x, y, h, 0⟩
    ∧ (s.InBounds x y ∧ y.toNat + h.toNat ≤ s.height.toNat →
        Paints (.vline x y h c) s
          (fun px py => px = x.toNat ∧ y.toNat ≤ py ∧ py < y.toNat + h.toNat) c
        ∧ ∃ t u, exec (.vline x y h c) s = .next t
          ∧ execAll ((List.range h.toNat).map (fun k => .setpx x (BitVec.ofNat 16 (y.toNat + k)) c)) s
              = .next u
          ∧ u.fb = t.fb)
    ∧ (¬ (s.InBounds x y ∧ y.toNat + h.toNat ≤ s.height.toNat) →
        FailsWith (.vline x y h c) s .outOfBounds)

/-! ## Shapes -/

/-- R120, R124: RECT fails, with no write, when a corner is out of bounds or an edge has no length. The edge
without length is the spec's own decision D16. -/
def Obligations.RectRefusesBadCorners : Prop :=
  ∀ (s : State) (x1 y1 x2 y2 : U16) (c : Bool),
    EncodedAs (.rect x1 y1 x2 y2 c) ⟨0x13, c, 0, x1, y1, x2, y2⟩
    ∧ (¬ (s.InBounds x1 y1 ∧ s.InBounds x2 y2) ∨ x1 = x2 ∨ y1 = y2 →
        FailsWith (.rect x1 y1 x2 y2 c) s .outOfBounds)

/-- R122: under HALF_OPEN the four runs of RECT, each starting on a corner and stopping one pixel short of the
next. Rests on the spec's own decision D15. -/
def Obligations.RectHalfOpenPaintsFourRuns : Prop :=
  ∀ (s : State) (x1 y1 x2 y2 : U16) (c : Bool) (x0 y0 W H : Nat), s.fb.wf = true →
    s.InBounds x1 y1 → s.InBounds x2 y2 → s.cfg.rectExtent = .halfOpen →
    x0 = min x1.toNat x2.toNat → y0 = min y1.toNat y2.toNat →
    W = absDiff x2.toNat x1.toNat → H = absDiff y2.toNat y1.toNat → 0 < W → 0 < H →
    Paints (.rect x1 y1 x2 y2 c) s
      (fun x y =>
        (y = y0 ∧ x0 ≤ x ∧ x < x0 + (W - 1))
        ∨ (x = x0 + W - 1 ∧ y0 ≤ y ∧ y < y0 + (H - 1))
        ∨ (y = y0 + H - 1 ∧ x0 + 1 ≤ x ∧ x < x0 + 1 + (W - 1))
        ∨ (x = x0 ∧ y0 + 1 ≤ y ∧ y < y0 + 1 + (H - 1))) c

/-- R123: under INCLUSIVE the four sides without their end pixels. Rests on the spec's own decision D15. -/
def Obligations.RectInclusivePaintsFourSides : Prop :=
  ∀ (s : State) (x1 y1 x2 y2 : U16) (c : Bool) (x0 y0 W H : Nat), s.fb.wf = true →
    s.InBounds x1 y1 → s.InBounds x2 y2 → s.cfg.rectExtent = .inclusive →
    x0 = min x1.toNat x2.toNat → y0 = min y1.toNat y2.toNat →
    W = absDiff x2.toNat x1.toNat → H = absDiff y2.toNat y1.toNat → 0 < W → 0 < H →
    Paints (.rect x1 y1 x2 y2 c) s
      (fun x y =>
        (y = y0 ∧ x0 + 1 ≤ x ∧ x < x0 + 1 + (W - 1))
        ∨ (y = y0 + H ∧ x0 + 1 ≤ x ∧ x < x0 + 1 + (W - 1))
        ∨ (x = x0 ∧ y0 + 1 ≤ y ∧ y < y0 + 1 + (H - 1))
        ∨ (x = x0 + W ∧ y0 + 1 ≤ y ∧ y < y0 + 1 + (H - 1))) c

/-- Under HALF_OPEN a RECT is the closed border of the box its corners give, unless that box is one pixel, of
which nothing is drawn (R122). Rests on the spec's own decision D15. -/
def Obligations.RectHalfOpenIsTheClosedBorder : Prop :=
  ∀ (s : State) (x1 y1 x2 y2 : U16) (c : Bool) (x0 y0 W H : Nat), s.fb.wf = true →
    s.InBounds x1 y1 → s.InBounds x2 y2 → s.cfg.rectExtent = .halfOpen →
    x0 = min x1.toNat x2.toNat → y0 = min y1.toNat y2.toNat →
    W = absDiff x2.toNat x1.toNat → H = absDiff y2.toNat y1.toNat → 0 < W → 0 < H →
    (¬ (W = 1 ∧ H = 1) → Paints (.rect x1 y1 x2 y2 c) s (OnBorder x0 y0 W H) c)
    ∧ (W = 1 ∧ H = 1 → exec (.rect x1 y1 x2 y2 c) s = .next (s.redrawn s.fb))

/-- The corners of RECT and FRECT may be given in either order, each coordinate on its own (R120), under
both readings of RECT_EXTENT. -/
def Obligations.RectangleCornersCommute : Prop :=
  ∀ (s : State) (x1 y1 x2 y2 : U16) (c : Bool),
    exec (.rect x2 y2 x1 y1 c) s = exec (.rect x1 y1 x2 y2 c) s
    ∧ exec (.rect x1 y2 x2 y1 c) s = exec (.rect x1 y1 x2 y2 c) s
    ∧ exec (.frect x2 y2 x1 y1 c) s = exec (.frect x1 y1 x2 y2 c) s
    ∧ exec (.frect x1 y2 x2 y1 c) s = exec (.frect x1 y1 x2 y2 c) s

/-- R125, R126: FRECT fills the box, half-open or inclusive as RECT_EXTENT says, and fails only when a corner
is out of bounds. Rests on the spec's own decision D17. -/
def Obligations.FrectFillsTheBox : Prop :=
  ∀ (s : State) (x1 y1 x2 y2 : U16) (c : Bool) (x0 y0 W H : Nat), s.fb.wf = true →
    x0 = min x1.toNat x2.toNat → y0 = min y1.toNat y2.toNat →
    W = absDiff x2.toNat x1.toNat → H = absDiff y2.toNat y1.toNat →
    EncodedAs (.frect x1 y1 x2 y2 c) ⟨0x14, c, 0, x1, y1, x2, y2⟩
    ∧ (s.InBounds x1 y1 ∧ s.InBounds x2 y2 → s.cfg.rectExtent = .halfOpen →
        Paints (.frect x1 y1 x2 y2 c) s
          (fun x y => (y0 ≤ y ∧ y < y0 + H) ∧ x0 ≤ x ∧ x < x0 + W) c)
    ∧ (s.InBounds x1 y1 ∧ s.InBounds x2 y2 → s.cfg.rectExtent = .inclusive →
        Paints (.frect x1 y1 x2 y2 c) s
          (fun x y => (y0 ≤ y ∧ y ≤ y0 + H) ∧ x0 ≤ x ∧ x ≤ x0 + W) c)
    ∧ (¬ (s.InBounds x1 y1 ∧ s.InBounds x2 y2) → FailsWith (.frect x1 y1 x2 y2 c) s .outOfBounds)

/-- R130: TEXBLT copies whole bytes from byte column `x / 8` on, rows from `y` down, dropping what lies past
the panel; every other byte keeps its value. Rests on the spec's own decisions D18 and D28. -/
def Obligations.TexbltCopiesClippedRows : Prop :=
  ∀ (s : State) (x y nrows rowlen : U16) (payload : List Byte), s.fb.wf = true →
    payload.length = nrows.toNat * rowlen.toNat →
    EncodedAs (.texblt x y nrows rowlen payload) ⟨0x15, false, 0, x, y, nrows, rowlen⟩
    ∧ (s.InBounds x y →
        ∃ m, exec (.texblt x y nrows rowlen payload) s = .next (s.redrawn m) ∧ m.wf = true
          ∧ ∀ r i, i < 8192 → m.byteAt r i =
              if (y.toNat ≤ r ∧ r < y.toNat + nrows.toNat ∧ r < s.height.toNat)
                ∧ x.toNat / 8 ≤ i ∧ i < x.toNat / 8 + rowlen.toNat ∧ i < s.bpr
              then payload.getD ((r - y.toNat) * rowlen.toNat + (i - x.toNat / 8)) 0
              else s.fb.byteAt r i)
    ∧ (¬ s.InBounds x y → FailsWith (.texblt x y nrows rowlen payload) s .outOfBounds)

/-- The model's reading of D5 (log 10): an operation whose payload has not the length its fields announce
is IllegalCommand and changes nothing. -/
def Obligations.WrongPayloadLengthIsIllegal : Prop :=
  ∀ (i : Instr) (s : State), ¬ i.WellFormed → FailsWith i s .illegalCommand

/-- R47, R131: a drawing operation with operands of its own performed twice in a row leaves the same
framebuffer as performed once. PRCH is left out, since it moves the cursor. R131 is the spec's own inference.
-/
def Obligations.DrawingTwiceIsDrawingOnce : Prop :=
  ∀ (i : Instr) (s t : State), Idempotent i = true → s.fb.wf = true → exec i s = .next t →
    ∃ u, exec i t = .next u ∧ u.fb = t.fb

/-! ## Glyphs and the Printer -/

/-- R141: PUTCH draws the 40 pixels of the cell, bit 0 of a column byte on top, set bits in the colour and
clear bits in its inverse, nothing outside the cell, and only when the whole cell fits. The bit direction is
the spec's own decision D19. -/
def Obligations.PutchDrawsTheCell : Prop :=
  ∀ (s : State) (x y : U16) (code : Byte) (c : Bool), s.fb.wf = true →
    EncodedAs (.putch x y code c) ⟨0x16, c, 0, x, y, code.setWidth 16, 0⟩
    ∧ (s.InBounds x y ∧ x.toNat + 5 ≤ s.width.toNat ∧ y.toNat + 8 ≤ s.height.toNat →
        ∃ m, exec (.putch x y code c) s = .next (s.redrawn m) ∧ m.wf = true
          ∧ (∀ (col : Fin 5) (row : Nat), row < 8 →
              m.pixel (x.toNat + col.val) (y.toNat + row) =
                if (fontByte s.cfg code col).getLsbD row then c else !c)
          ∧ ∀ px py, px < 65536 →
              ¬ (x.toNat ≤ px ∧ px < x.toNat + 5 ∧ y.toNat ≤ py ∧ py < y.toNat + 8) →
              m.pixel px py = s.fb.pixel px py)
    ∧ (¬ (s.InBounds x y ∧ x.toNat + 5 ≤ s.width.toNat ∧ y.toNat + 8 ≤ s.height.toNat) →
        FailsWith (.putch x y code c) s .outOfBounds)

/-- R142: PUTCH is opaque: the cell's final content does not depend on what was there, and the sixth column of
the pitch keeps its content. R142 is the spec's own inference. -/
def Obligations.PutchIsOpaque : Prop :=
  ∀ (s s' t t' : State) (x y : U16) (code : Byte) (c : Bool),
    s.fb.wf = true → s'.fb.wf = true → s'.width = s.width → s'.height = s.height → s'.cfg = s.cfg →
    s.CellFits x y → exec (.putch x y code c) s = .next t → exec (.putch x y code c) s' = .next t' →
    (∀ px py, x.toNat ≤ px → px < x.toNat + 5 → y.toNat ≤ py → py < y.toNat + 8 →
      t.fb.pixel px py = t'.fb.pixel px py)
    ∧ ∀ py, x.toNat + 5 < 65536 →
        t.fb.pixel (x.toNat + 5) py = s.fb.pixel (x.toNat + 5) py

/-- R145: PRSET gives the Printer its cursor and colour, any values, and changes nothing else. Rests on the
spec's own decision D20. -/
def Obligations.PrsetSetsThePrinter : Prop :=
  ∀ (s : State) (x y : U16) (c : Bool),
    EncodedAs (.prset x y c) ⟨0x18, c, 0, x, y, 0, 0⟩
    ∧ exec (.prset x y c) s = .next
        (State.answering { s with pr := { set := true, x := x, y := y, color := c } } (.ok .nothing))

/-- R146: PRCH is PUTCH at the cursor in the Printer's colour; on success the cursor moves 6 right without
wrapping, and on failure nothing moves; before the first PRSET it is IllegalCommand. Rests on the spec's own
decision D20 (log 11). -/
def Obligations.PrchPrintsAndAdvances : Prop :=
  ∀ (s : State) (code : Byte), s.width.toNat % 8 = 0 →
    EncodedAs (.prch code) ⟨0x19, false, 0, 0, 0, code.setWidth 16, 0⟩
    ∧ (s.pr.set = true → s.CellFits s.pr.x s.pr.y →
        ∃ m, exec (.putch s.pr.x s.pr.y code s.pr.color) s = .next (s.redrawn m)
          ∧ exec (.prch code) s = .next
              (State.redrawn { s with pr := { s.pr with x := s.pr.x + 6 } } m)
          ∧ (s.pr.x + 6).toNat = s.pr.x.toNat + 6)
    ∧ (s.pr.set = true → ¬ s.CellFits s.pr.x s.pr.y → FailsWith (.prch code) s .outOfBounds)
    ∧ (s.pr.set = false → FailsWith (.prch code) s .illegalCommand)

/-! ## The protocol -/

/-- R160: DCLR hands over the two-byte Clear frame and inverts the flag; it does not touch the framebuffer.
Which flag value sets the bit, and that the frame is built before the inversion, are the spec's own decisions
D8 and D10 (log 17); the inversion on Err is log 16; that an empty queue of answers is answered is log 12
(D22). -/
def Obligations.DclrSendsTheClearFrame : Prop :=
  ∀ s : State,
    EncodedAs .dclr ⟨0x20, false, 0, 0, 0, 0, 0⟩
    ∧ (s.TransportAnswers → Sends .dclr s [commandByteOf s s.cfg.clearCmd, 0x00])

/-- R161: RFSH hands over all rows in order, each with its 1-based number and a trailer, and the final
terminator; with more than 255 rows it is refused. Rests on the spec's own decisions D8, D10 and D21 (log 11,
log 17), on log 12 (D22) and log 16 as DCLR does. -/
def Obligations.RfshSendsEveryRow : Prop :=
  ∀ s : State,
    EncodedAs .rfsh ⟨0x21, false, 0, 0, 0, 0, 0⟩
    ∧ (s.height.toNat ≤ 255 → s.TransportAnswers →
        Sends .rfsh s
          (commandByteOf s s.cfg.writeCmd ::
            (List.range s.height.toNat).flatMap
              (fun y => BitVec.ofNat 8 (y + 1) :: rowBytes s y ++ [0x00]) ++ [0x00]))
    ∧ (255 < s.height.toNat → FailsWith .rfsh s .illegalCommand)

/-- R162: RFLN hands over one row with its 1-based number and two trailers; a row that does not exist is
OutOfBounds, found before a line number above 255, and neither transmits. Rests on the spec's own decisions
D8, D10, D11 and D21 (log 11, log 17), on log 12 (D22) and log 16 as DCLR does. -/
def Obligations.RflnSendsOneRow : Prop :=
  ∀ (s : State) (n : U16),
    EncodedAs (.rfln n) ⟨0x22, false, 0, 0, n, 0, 0⟩
    ∧ (n.toNat < s.height.toNat → n.toNat + 1 ≤ 255 → s.TransportAnswers →
        Sends (.rfln n) s
          (commandByteOf s s.cfg.writeCmd :: BitVec.ofNat 8 (n.toNat + 1) ::
            rowBytes s n.toNat ++ [0x00, 0x00]))
    ∧ (¬ n.toNat < s.height.toNat → FailsWith (.rfln n) s .outOfBounds)
    ∧ (n.toNat < s.height.toNat → 255 < n.toNat + 1 → FailsWith (.rfln n) s .illegalCommand)

/-- R163: a protocol operation that would need a line number above 255 is refused before any transmission and
leaves the flag; every operation that does not transmit is defined for any HEIGHT. Rests on the spec's own
decision D21 (log 11). -/
def Obligations.LineNumbersAbove255AreRefused : Prop :=
  ∀ s : State,
    (255 < s.height.toNat → exec .rfsh s = .next (s.answering (.error .illegalCommand)))
    ∧ (∀ n : U16, n.toNat < s.height.toNat → 255 < n.toNat + 1 →
        exec (.rfln n) s = .next (s.answering (.error .illegalCommand)))
    ∧ ∀ i, Transmits i = false → ∃ t, exec i s = .next t

/-- R64: the lengths of the three frames. The zero cases are the spec's own inference. -/
def Obligations.FrameLengths : Prop :=
  ∀ (s t : State) (f : Transmission),
    (exec .dclr s = .next t → t.frames = f :: s.frames → f.bytes.length = 2)
    ∧ (exec .rfsh s = .next t → t.frames = f :: s.frames →
        f.bytes.length = 2 + s.height.toNat * (s.bpr + 2)
        ∧ f.bytes.length = s.height.toNat * s.bpr + (2 + 2 * s.height.toNat)
        ∧ (s.height = 0 → f.bytes = [commandByteOf s s.cfg.writeCmd, 0x00])
        ∧ (s.bpr = 0 → f.bytes = commandByteOf s s.cfg.writeCmd ::
            (List.range s.height.toNat).flatMap (fun y => [BitVec.ofNat 8 (y + 1), 0x00]) ++ [0x00]))
    ∧ ∀ n, exec (.rfln n) s = .next t → t.frames = f :: s.frames → f.bytes.length = s.bpr + 4

/-- R61: what stands at each offset of the three frames, and that each ends there. The command byte is R62:
which flag value sets the bit is the spec's own decision D8, and that the flag is read before the inversion
its decision D10 (log 17). -/
def Obligations.FramesFieldByField : Prop :=
  ∀ (s t : State) (f : Transmission), t.frames = f :: s.frames →
    (exec .dclr s = .next t → f.bytes = [commandByteOf s s.cfg.clearCmd, 0x00])
    ∧ (exec .rfsh s = .next t →
        f.bytes[0]? = some (commandByteOf s s.cfg.writeCmd)
        ∧ (∀ y, y < s.height.toNat →
            f.bytes[1 + y * (s.bpr + 2)]? = some (BitVec.ofNat 8 (y + 1))
            ∧ (∀ i, i < s.bpr → f.bytes[2 + y * (s.bpr + 2) + i]? = some (s.fb.byteAt y i))
            ∧ f.bytes[2 + y * (s.bpr + 2) + s.bpr]? = some 0x00)
        ∧ f.bytes[1 + s.height.toNat * (s.bpr + 2)]? = some 0x00
        ∧ f.bytes.length = 2 + s.height.toNat * (s.bpr + 2))
    ∧ ∀ n : U16, exec (.rfln n) s = .next t →
        f.bytes[0]? = some (commandByteOf s s.cfg.writeCmd)
        ∧ f.bytes[1]? = some (BitVec.ofNat 8 (n.toNat + 1))
        ∧ (∀ i, i < s.bpr → f.bytes[2 + i]? = some (s.fb.byteAt n.toNat i))
        ∧ f.bytes[2 + s.bpr]? = some 0x00 ∧ f.bytes[3 + s.bpr]? = some 0x00
        ∧ f.bytes.length = s.bpr + 4

/-- R156: the flag inverts exactly once per frame handed over, whatever the answer, the frame carries the flag
as it stood before, and an operation that hands over no frame leaves it. Rests on the spec's own decisions D8,
D10 and D11 (log 17), and on log 16 for the inversion on Err. -/
def Obligations.VcomInvertsOncePerTransmission : Prop :=
  ∀ (i : Instr) (s t : State), exec i s = .next t →
    (t.frames = s.frames ∧ t.writes = s.writes ∧ t.vcom = s.vcom)
    ∨ (Transmits i = true ∧ t.writes = s.writes + 1 ∧ t.vcom = !s.vcom
        ∧ ∃ f, t.frames = f :: s.frames
          ∧ (f.bytes.head? = some (commandByteOf s s.cfg.writeCmd)
              ∨ f.bytes.head? = some (commandByteOf s s.cfg.clearCmd))
          ∧ t.trace.head? = some
              { sent := some f, result := if f.ok then .ok .nothing else .error .transportError })

/-- R157: the VCOM bits of the frames handed over alternate strictly from VCOM_RESET: the k-th frame since
reset carries VCOM_RESET xor (k is odd), whatever the operations and the answers were. R157 is the spec's own
inference; it rests on its decisions D8, D9 and D10 (log 17), and on log 16 for frames answered Err. -/
def Obligations.VcomBitsAlternate : Prop :=
  ∀ (s : State) (k : Nat) (f : Transmission), s.Inv → s.frames.reverse[k]? = some f →
    ∃ b, f.bytes.head? = some b ∧ ((b &&& s.cfg.vcomBit) ≠ 0 ↔ xor s.cfg.vcomReset (k % 2 == 1) = true)

/-! ## The AssetDecoder and responses -/

/-- R176, R177: TEXDEC checks the length, reads the little-endian header, cuts the rows from what follows it,
ignores what follows the last row, and changes no state. That bytes after the last row are ignored is the
spec's own decision D23 (log 17). -/
def Obligations.TexdecCutsTheRows : Prop :=
  ∀ (s : State) (plen : BitVec 32) (bytes : List Byte) (w h rl : Nat),
    bytes.length = plen.toNat →
    w = (bytes.getD 0 0).toNat + 256 * (bytes.getD 1 0).toNat →
    h = (bytes.getD 2 0).toNat + 256 * (bytes.getD 3 0).toNat →
    rl = (w + 7) / 8 →
    EncodedAs (.texdec plen bytes)
        ⟨0x30, false, 0, 0, 0, plen.extractLsb' 0 16, plen.extractLsb' 16 16⟩
    ∧ (bytes.length < 4 → FailsWith (.texdec plen bytes) s .truncated)
    ∧ (4 ≤ bytes.length → bytes.length - 4 < h * rl → FailsWith (.texdec plen bytes) s .truncated)
    ∧ (4 ≤ bytes.length → h * rl ≤ bytes.length - 4 →
        exec (.texdec plen bytes) s = .next (s.answering (.ok (.texture (BitVec.ofNat 16 w)
          (BitVec.ofNat 16 h)
          ((List.range h).map (fun k => (bytes.drop (4 + k * rl)).take rl))))))

/-- R178: decoding an asset written out gives back its width, height and rows. R178 is the spec's own
inference. -/
def Obligations.AssetRoundTrip : Prop :=
  ∀ (s : State) (w h : U16) (rows : List (List Byte)),
    rows.length = h.toNat → (∀ r ∈ rows, r.length = (w.toNat + 7) / 8) →
    exec (.texdec (BitVec.ofNat 32 (encodeAsset w h rows).length) (encodeAsset w h rows)) s
      = .next (s.answering (.ok (.texture w h rows)))

/-- R76: a response is one status byte and the success value: an error is its code alone; GETPX carries one
byte, ROWRD the bytes of the row, TEXDEC the header and the rows as they stood in the asset, every other
operation nothing. Rests on the spec's own decision D4. -/
def Obligations.ResponseBytes : Prop :=
  ∀ (i : Instr) (s t : State) (c : Completion), exec i s = .next t → t.trace.head? = some c →
    (c.result = .error .invalidDimensions → c.result.bytes = [0x01])
    ∧ (c.result = .error .outOfBounds → c.result.bytes = [0x02])
    ∧ (c.result = .error .truncated → c.result.bytes = [0x03])
    ∧ (c.result = .error .transportError → c.result.bytes = [0x04])
    ∧ (c.result = .error .illegalCommand → c.result.bytes = [0x05])
    ∧ ∀ v, c.result = .ok v →
        (∀ x y, i = .getpx x y →
          c.result.bytes = [0x00, if s.fb.pixel x.toNat y.toNat then 0x01 else 0x00])
        ∧ (∀ y, i = .rowrd y → c.result.bytes = 0x00 :: rowBytes s y.toNat)
        ∧ (∀ plen bytes, i = .texdec plen bytes →
            c.result.bytes = 0x00 :: bytes.take
              (4 + ((bytes.getD 2 0).toNat + 256 * (bytes.getD 3 0).toNat)
                * (((bytes.getD 0 0).toNat + 256 * (bytes.getD 1 0).toNat + 7) / 8)))
        ∧ ((∀ x y, i ≠ .getpx x y) → (∀ y, i ≠ .rowrd y) → (∀ plen bytes, i ≠ .texdec plen bytes) →
            c.result.bytes = [0x00])
end

