-- ==== Sys2Proof/Laws/Memory.lean ====
section
/-! SUPPORT. The laws of the framebuffer as a list of cells: reading after writing, the canonical form
kept, equal contents are equal lists, nothing outside the panel. -/

namespace Sys2Proof.Machine

theorem Memory.wfFrom_mono {m : Memory} {a b : Nat} (h : Memory.wfFrom b m = true) (hab : a ≤ b) :
    Memory.wfFrom a m = true := by
  cases m with
  | nil => rfl
  | cons c m =>
    obtain ⟨k, v⟩ := c
    simp only [Memory.wfFrom, Bool.and_eq_true, decide_eq_true_eq] at h ⊢
    exact ⟨⟨hab.trans h.1.1, h.1.2⟩, h.2⟩

/-- Below its first possible address a canonical memory reads as blank. -/
theorem Memory.read_of_lt {m : Memory} {lo a : Nat} (h : Memory.wfFrom lo m = true) (ha : a < lo) :
    m.read a = Memory.blank := by
  induction m generalizing lo with
  | nil => rfl
  | cons c m ih =>
    obtain ⟨k, v⟩ := c
    simp only [Memory.wfFrom, Bool.and_eq_true, decide_eq_true_eq] at h
    have hk : k ≠ a := by omega
    simp only [Memory.read, hk, if_false]
    exact ih h.2 (by omega)

theorem Memory.read_put {m : Memory} {a b : Nat} {v : Byte} (h : Memory.wfFrom (a + 1) m = true) :
    (Memory.put a v m).read b = if b = a then v else m.read b := by
  unfold Memory.put
  by_cases hv : v = Memory.blank
  · by_cases hb : b = a
    · subst hb; simp [hv, Memory.read_of_lt h (Nat.lt_succ_self _)]
    · simp [hv, hb]
  · by_cases hb : b = a
    · simp [hv, hb, Memory.read]
    · simp [hv, hb, Memory.read, Ne.symm hb]

theorem Memory.wfFrom_put {m : Memory} {lo a : Nat} {v : Byte} (h : Memory.wfFrom (a + 1) m = true)
    (ha : lo ≤ a) : Memory.wfFrom lo (Memory.put a v m) = true := by
  unfold Memory.put
  by_cases hv : v = Memory.blank
  · simpa [hv] using Memory.wfFrom_mono h (by omega)
  · simp [hv, Memory.wfFrom, ha, h]

/-- The canonical form is kept by a write. -/
theorem Memory.wfFrom_write {m : Memory} {lo a : Nat} {v : Byte} (h : Memory.wfFrom lo m = true)
    (ha : lo ≤ a) : Memory.wfFrom lo (m.write a v) = true := by
  induction m generalizing lo with
  | nil => exact Memory.wfFrom_put rfl ha
  | cons c m ih =>
    obtain ⟨k, w⟩ := c
    have h' := h
    simp only [Memory.wfFrom, Bool.and_eq_true, decide_eq_true_eq] at h'
    simp only [Memory.write]
    split
    · refine Memory.wfFrom_put ?_ ha
      simp only [Memory.wfFrom, Bool.and_eq_true, decide_eq_true_eq]
      exact ⟨⟨by omega, h'.1.2⟩, h'.2⟩
    · split
      · rename_i hak; subst hak
        exact Memory.wfFrom_put h'.2 ha
      · simp only [Memory.wfFrom, Bool.and_eq_true, decide_eq_true_eq]
        exact ⟨h'.1, ih h'.2 (by omega)⟩

theorem Memory.wf_write {m : Memory} {a : Nat} {v : Byte} (h : m.wf = true) :
    (m.write a v).wf = true := Memory.wfFrom_write h (Nat.zero_le a)

/-- A read after a write: the value written at its address, every other byte as it was. -/
theorem Memory.read_write_from {m : Memory} {lo a : Nat} {v : Byte} (h : Memory.wfFrom lo m = true)
    (b : Nat) : (m.write a v).read b = if b = a then v else m.read b := by
  induction m generalizing lo with
  | nil => exact Memory.read_put (m := []) rfl
  | cons c m ih =>
    obtain ⟨k, w⟩ := c
    simp only [Memory.wfFrom, Bool.and_eq_true, decide_eq_true_eq] at h
    simp only [Memory.write]
    split
    · refine Memory.read_put ?_
      simp only [Memory.wfFrom, Bool.and_eq_true, decide_eq_true_eq]
      exact ⟨⟨by omega, h.1.2⟩, h.2⟩
    · split
      · rename_i hak; subst hak
        rw [Memory.read_put h.2]
        by_cases hb : b = a
        · simp [hb]
        · simp [Memory.read, hb, Ne.symm hb]
      · rename_i h1 h2
        simp only [Memory.read, ih h.2]
        by_cases hb : k = b
        · have : ¬ b = a := by omega
          simp [hb, this]
        · simp [hb]

theorem Memory.read_write {m : Memory} {a : Nat} {v : Byte} (h : m.wf = true) (b : Nat) :
    (m.write a v).read b = if b = a then v else m.read b := Memory.read_write_from h b

/-- Two canonical memories that read alike everywhere are the same list. -/
theorem Memory.ext_from {m n : Memory} {lo : Nat} (hm : Memory.wfFrom lo m = true)
    (hn : Memory.wfFrom lo n = true) (h : ∀ a, m.read a = n.read a) : m = n := by
  induction m generalizing n lo with
  | nil =>
    cases n with
    | nil => rfl
    | cons c n =>
      obtain ⟨k, v⟩ := c
      simp only [Memory.wfFrom, Bool.and_eq_true, bne_iff_ne] at hn
      have := h k
      simp only [Memory.read, if_true] at this
      exact absurd this.symm hn.1.2
  | cons c m ih =>
    obtain ⟨k, v⟩ := c
    have hm' := hm
    simp only [Memory.wfFrom, Bool.and_eq_true, bne_iff_ne, decide_eq_true_eq] at hm'
    cases n with
    | nil =>
      have := h k
      simp only [Memory.read, if_true] at this
      exact absurd this hm'.1.2
    | cons d n =>
      obtain ⟨l, w⟩ := d
      have hn' := hn
      simp only [Memory.wfFrom, Bool.and_eq_true, bne_iff_ne, decide_eq_true_eq] at hn'
      have hkl : k = l := by
        rcases Nat.lt_trichotomy k l with hlt | heq | hgt
        · have := h k
          have hne : ¬ l = k := by omega
          simp only [Memory.read, if_true, hne, if_false] at this
          rw [Memory.read_of_lt hn'.2 (by omega)] at this
          exact absurd this hm'.1.2
        · exact heq
        · have := h l
          have hne : ¬ k = l := by omega
          simp only [Memory.read, if_true, hne, if_false] at this
          rw [Memory.read_of_lt hm'.2 (by omega)] at this
          exact absurd this.symm hn'.1.2
      subst hkl
      have hv : v = w := by simpa [Memory.read] using h k
      subst hv
      congr 1
      refine ih hm'.2 hn'.2 fun a => ?_
      by_cases ha : k = a
      · subst ha
        rw [Memory.read_of_lt hm'.2 (by omega), Memory.read_of_lt hn'.2 (by omega)]
      · simpa [Memory.read, ha] using h a

theorem Memory.ext_of_read {m n : Memory} (hm : m.wf = true) (hn : n.wf = true)
    (h : ∀ a, m.read a = n.read a) : m = n := Memory.ext_from hm hn h

/-! ## Bytes of rows -/

theorem byteAddress_inj {y i y' i' : Nat} (hi : i < 8192) (hi' : i' < 8192) :
    byteAddress y i = byteAddress y' i' ↔ y = y' ∧ i = i' := by
  unfold byteAddress; omega

theorem Memory.wf_setByte {m : Memory} {y i : Nat} {v : Byte} (h : m.wf = true) :
    (m.setByte y i v).wf = true := Memory.wf_write h

theorem Memory.byteAt_setByte {m : Memory} {y i y' i' : Nat} {v : Byte} (h : m.wf = true)
    (hi : i < 8192) (hi' : i' < 8192) :
    (m.setByte y i v).byteAt y' i' = if y' = y ∧ i' = i then v else m.byteAt y' i' := by
  unfold Memory.setByte Memory.byteAt
  rw [Memory.read_write h]
  simp only [byteAddress_inj hi' hi]

/-- Two canonical memories with the same bytes in every row are the same list. -/
theorem Memory.ext_of_byteAt {m n : Memory} (hm : m.wf = true) (hn : n.wf = true)
    (h : ∀ y i, i < 8192 → m.byteAt y i = n.byteAt y i) : m = n := by
  refine Memory.ext_of_read hm hn fun a => ?_
  have := h (a / 8192) (a % 8192) (Nat.mod_lt _ (by decide))
  have ha : byteAddress (a / 8192) (a % 8192) = a := by unfold byteAddress; omega
  simpa [Memory.byteAt, ha] using this

/-- Two canonical memories with the same pixels are the same list. -/
theorem Memory.ext_of_pixel {m n : Memory} (hm : m.wf = true) (hn : n.wf = true)
    (h : ∀ x y, x < 65536 → m.pixel x y = n.pixel x y) : m = n := by
  refine Memory.ext_of_byteAt hm hn fun y i hi => ?_
  refine BitVec.eq_of_getLsbD_eq fun b hb => ?_
  have := h (8 * i + b) y (by omega)
  have h1 : (8 * i + b) / 8 = i := by omega
  have h2 : (8 * i + b) % 8 = b := by omega
  simpa [Memory.pixel, h1, h2] using this

/-! ## Nothing outside the panel -/

theorem Memory.within_put {m : Memory} {a : Nat} {v : Byte} {h bpr : Nat}
    (hm : m.within h bpr = true) (hy : a / 8192 < h) (hi : a % 8192 < bpr) :
    (Memory.put a v m).within h bpr = true := by
  unfold Memory.put
  split
  · exact hm
  · simp only [Memory.within, List.all_cons, Bool.and_eq_true, decide_eq_true_eq]
    exact ⟨⟨hy, hi⟩, hm⟩

theorem Memory.within_write {m : Memory} {a : Nat} {v : Byte} {h bpr : Nat}
    (hm : m.within h bpr = true) (hy : a / 8192 < h) (hi : a % 8192 < bpr) :
    (m.write a v).within h bpr = true := by
  induction m with
  | nil => exact Memory.within_put hm hy hi
  | cons c m ih =>
    obtain ⟨k, w⟩ := c
    have hm' := hm
    simp only [Memory.within, List.all_cons, Bool.and_eq_true] at hm'
    simp only [Memory.write]
    split
    · exact Memory.within_put hm hy hi
    · split
      · exact Memory.within_put hm'.2 hy hi
      · simp only [Memory.within, List.all_cons, Bool.and_eq_true]
        exact ⟨hm'.1, ih hm'.2⟩

theorem Memory.within_setByte {m : Memory} {y i : Nat} {v : Byte} {h bpr : Nat}
    (hm : m.within h bpr = true) (hy : y < h) (hi : i < bpr) (hb : bpr ≤ 8192) :
    (m.setByte y i v).within h bpr = true := by
  refine Memory.within_write hm ?_ ?_ <;> unfold byteAddress <;> omega

/-- A byte outside the panel reads as blank. -/
theorem Memory.byteAt_of_outside {m : Memory} {h bpr y i : Nat} (hm : m.within h bpr = true)
    (hi : i < 8192) (ho : ¬ (y < h ∧ i < bpr)) : m.byteAt y i = Memory.blank := by
  unfold Memory.byteAt
  induction m with
  | nil => rfl
  | cons c m ih =>
    obtain ⟨k, w⟩ := c
    simp only [Memory.within, List.all_cons, Bool.and_eq_true, decide_eq_true_eq] at hm
    have hk : ¬ k = byteAddress y i := by
      rintro rfl
      unfold byteAddress at hm
      omega
    simp only [Memory.read, hk, if_false]
    exact ih hm.2

end Sys2Proof.Machine
end

