-- ==== Sys2Proof/Laws/Drawing.lean ====
section
/-! SUPPORT. What each drawing primitive does, pixel by pixel or byte by byte, that it keeps the canonical
form, and that it stays in the panel. -/

namespace Sys2Proof.Machine

/-! ## Masks, bit by bit -/

theorem maskSet_getLsbD {b k : Nat} (hk : k < 8) : (maskSet b).getLsbD k = decide (k = b) := by
  unfold maskSet
  rw [BitVec.getLsbD_shiftLeft, BitVec.getLsbD_one]
  by_cases h : k < b
  · simp [h]; omega
  · simp [h, hk]; omega

theorem maskClear_getLsbD {b k : Nat} (hk : k < 8) : (maskClear b).getLsbD k = !decide (k = b) := by
  have := maskSet_getLsbD (b := b) hk
  unfold maskSet at this
  unfold maskClear
  rw [BitVec.getLsbD_not, this]
  simp [hk]

theorem capMask_getLsbD {b k : Nat} (hk : k < 8) : (capMask b).getLsbD k = decide (b ≤ k) := by
  unfold capMask
  rw [BitVec.getLsbD_shiftLeft, show (0xFF#8 : Byte) = BitVec.allOnes 8 from rfl,
    BitVec.getLsbD_allOnes]
  by_cases h : k < b
  · simp [h]
  · simp [h, hk]; omega

theorem shiftMask_getLsbD {b k : Nat} (hb : b < 8) (hk : k < 8) :
    (shiftMask b).getLsbD k = decide (k < b) := by
  have : ∀ b < 8, ∀ k < 8, (shiftMask b).getLsbD k = decide (k < b) := by decide
  exact this b hb k hk

theorem fillByte_getLsbD {c : Bool} {k : Nat} (hk : k < 8) : (fillByte c).getLsbD k = c := by
  revert k; cases c <;> decide

/-! ## Pixels of a changed byte -/

theorem Memory.pixel_setByte {m : Memory} {y i x' y' : Nat} {v : Byte} (h : m.wf = true)
    (hi : i < 8192) (hx : x' < 65536) :
    (m.setByte y i v).pixel x' y' =
      if y' = y ∧ x' / 8 = i then v.getLsbD (x' % 8) else m.pixel x' y' := by
  unfold Memory.pixel
  rw [Memory.byteAt_setByte h hi (by omega)]
  split <;> rfl

theorem Memory.wf_setBit {m : Memory} {x y : Nat} {c : Bool} (h : m.wf = true) :
    (m.setBit x y c).wf = true := by
  unfold Memory.setBit; split <;> exact Memory.wf_setByte h

/-- SetBit changes one pixel (40_framebuffer.md R91, R94). -/
theorem Memory.pixel_setBit {m : Memory} {x y x' y' : Nat} {c : Bool} (h : m.wf = true)
    (hx : x < 65536) (hx' : x' < 65536) :
    (m.setBit x y c).pixel x' y' = if x' = x ∧ y' = y then c else m.pixel x' y' := by
  have h8 : x' % 8 < 8 := Nat.mod_lt _ (by decide)
  unfold Memory.setBit
  cases c
  · simp only [Bool.false_eq_true, if_false]
    rw [Memory.pixel_setByte h (by omega) hx', BitVec.getLsbD_and, maskClear_getLsbD h8]
    by_cases hp : x' = x ∧ y' = y
    · simp [hp]
    · rw [if_neg hp]
      by_cases hb : y' = y ∧ x' / 8 = x / 8
      · have hk : ¬ x' % 8 = x % 8 := by omega
        rw [if_pos hb]
        simp [hb, hk, Memory.pixel]
      · rw [if_neg hb]
  · simp only [if_true]
    rw [Memory.pixel_setByte h (by omega) hx', BitVec.getLsbD_or, maskSet_getLsbD h8]
    by_cases hp : x' = x ∧ y' = y
    · simp [hp]
    · rw [if_neg hp]
      by_cases hb : y' = y ∧ x' / 8 = x / 8
      · have hk : ¬ x' % 8 = x % 8 := by omega
        rw [if_pos hb]
        simp [hb, hk, Memory.pixel]
      · rw [if_neg hb]

theorem Memory.within_setBit {m : Memory} {x y h bpr : Nat} {c : Bool} (hm : m.within h bpr = true)
    (hy : y < h) (hx : x / 8 < bpr) (hb : bpr ≤ 8192) : (m.setBit x y c).within h bpr = true := by
  unfold Memory.setBit; split <;> exact Memory.within_setByte hm hy hx hb

theorem Memory.wf_applyMask {m : Memory} {y i : Nat} {k : Byte} {c : Bool} (h : m.wf = true) :
    (m.applyMask y i k c).wf = true := by
  unfold Memory.applyMask; split <;> exact Memory.wf_setByte h

/-- Apply changes the pixels of one byte under the mask (41_raster_runs.md R108). -/
theorem Memory.pixel_applyMask {m : Memory} {y i x' y' : Nat} {k : Byte} {c : Bool} (h : m.wf = true)
    (hi : i < 8192) (hx : x' < 65536) :
    (m.applyMask y i k c).pixel x' y' =
      if (y' = y ∧ x' / 8 = i) ∧ k.getLsbD (x' % 8) = true then c else m.pixel x' y' := by
  have h8 : x' % 8 < 8 := Nat.mod_lt _ (by decide)
  unfold Memory.applyMask
  cases c
  · simp only [Bool.false_eq_true, if_false]
    rw [Memory.pixel_setByte h hi hx, BitVec.getLsbD_and, BitVec.getLsbD_not]
    by_cases hb : y' = y ∧ x' / 8 = i
    · cases k.getLsbD (x' % 8) <;> simp [hb, h8, Memory.pixel]
    · simp [hb]
  · simp only [if_true]
    rw [Memory.pixel_setByte h hi hx, BitVec.getLsbD_or]
    by_cases hb : y' = y ∧ x' / 8 = i
    · cases k.getLsbD (x' % 8) <;> simp [hb, Memory.pixel]
    · simp [hb]

theorem Memory.within_applyMask {m : Memory} {y i h bpr : Nat} {k : Byte} {c : Bool}
    (hm : m.within h bpr = true) (hy : y < h) (hi : i < bpr) (hb : bpr ≤ 8192) :
    (m.applyMask y i k c).within h bpr = true := by
  unfold Memory.applyMask; split <;> exact Memory.within_setByte hm hy hi hb

/-! ## Whole bytes -/

theorem Memory.wf_fillBytes {m : Memory} {y i n : Nat} {v : Byte} (h : m.wf = true) :
    (m.fillBytes y i n v).wf = true := by
  induction n generalizing m i with
  | zero => exact h
  | succ n ih => exact ih (Memory.wf_setByte h)

theorem Memory.byteAt_fillBytes {m : Memory} {y i n y' i' : Nat} {v : Byte} (h : m.wf = true)
    (hi : i + n ≤ 8192) (hi' : i' < 8192) :
    (m.fillBytes y i n v).byteAt y' i' =
      if y' = y ∧ i ≤ i' ∧ i' < i + n then v else m.byteAt y' i' := by
  induction n generalizing m i with
  | zero => simp only [Memory.fillBytes]; rw [if_neg (by omega)]
  | succ n ih =>
    simp only [Memory.fillBytes]
    rw [ih (Memory.wf_setByte h) (by omega), Memory.byteAt_setByte h (by omega) hi']
    by_cases h1 : y' = y ∧ i + 1 ≤ i' ∧ i' < i + 1 + n
    · rw [if_pos h1, if_pos (by omega)]
    · rw [if_neg h1]
      by_cases h2 : y' = y ∧ i' = i
      · rw [if_pos h2, if_pos (by omega)]
      · rw [if_neg h2, if_neg (by omega)]

theorem Memory.within_fillBytes {m : Memory} {y i n h bpr : Nat} {v : Byte}
    (hm : m.within h bpr = true) (hy : y < h) (hi : i + n ≤ bpr) (hb : bpr ≤ 8192) :
    (m.fillBytes y i n v).within h bpr = true := by
  induction n generalizing m i with
  | zero => exact hm
  | succ n ih => exact ih (Memory.within_setByte hm hy (by omega) hb) (by omega)

theorem Memory.wf_clearRows {m : Memory} {bpr y n : Nat} {v : Byte} (h : m.wf = true) :
    (m.clearRows bpr v y n).wf = true := by
  induction n generalizing m y with
  | zero => exact h
  | succ n ih => exact ih (Memory.wf_fillBytes h)

/-- FBCLR's loop sets every byte of its rows (40_framebuffer.md R92). -/
theorem Memory.byteAt_clearRows {m : Memory} {bpr y n y' i' : Nat} {v : Byte} (h : m.wf = true)
    (hb : bpr ≤ 8192) (hi' : i' < 8192) :
    (m.clearRows bpr v y n).byteAt y' i' =
      if (y ≤ y' ∧ y' < y + n) ∧ i' < bpr then v else m.byteAt y' i' := by
  induction n generalizing m y with
  | zero => simp only [Memory.clearRows]; rw [if_neg (by omega)]
  | succ n ih =>
    simp only [Memory.clearRows]
    rw [ih (Memory.wf_fillBytes h), Memory.byteAt_fillBytes h (by omega) hi']
    by_cases h1 : (y + 1 ≤ y' ∧ y' < y + 1 + n) ∧ i' < bpr
    · rw [if_pos h1, if_pos (by omega)]
    · rw [if_neg h1]
      by_cases h2 : y' = y ∧ 0 ≤ i' ∧ i' < 0 + bpr
      · rw [if_pos h2, if_pos (by omega)]
      · rw [if_neg h2, if_neg (by omega)]

theorem Memory.within_clearRows {m : Memory} {bpr y n h : Nat} {v : Byte}
    (hm : m.within h bpr = true) (hy : y + n ≤ h) (hb : bpr ≤ 8192) :
    (m.clearRows bpr v y n).within h bpr = true := by
  induction n generalizing m y with
  | zero => exact hm
  | succ n ih => exact ih (Memory.within_fillBytes hm (by omega) (by omega) hb) (by omega)

theorem Memory.bytesFrom_eq_map {m : Memory} {y i n : Nat} :
    m.bytesFrom y i n = (List.range' i n).map (fun j => m.byteAt y j) := by
  induction n generalizing i with
  | zero => rfl
  | succ n ih => simp [Memory.bytesFrom, ih, List.range']

/-! ## Horizontal runs -/

theorem Memory.pixel_fillBytes {m : Memory} {y i n x' y' : Nat} {v : Byte} (h : m.wf = true)
    (hi : i + n ≤ 8192) (hx : x' < 65536) :
    (m.fillBytes y i n v).pixel x' y' =
      if y' = y ∧ i ≤ x' / 8 ∧ x' / 8 < i + n then v.getLsbD (x' % 8) else m.pixel x' y' := by
  unfold Memory.pixel
  rw [Memory.byteAt_fillBytes h hi (by omega)]
  split <;> rfl

theorem Memory.wf_hRunLead {m : Memory} {x y : Nat} {c : Bool} (h : m.wf = true) :
    (m.hRunLead x y c).wf = true := by
  unfold Memory.hRunLead; split
  · exact Memory.wf_applyMask h
  · exact h

theorem Memory.wf_hRunTrail {m : Memory} {x y : Nat} {c : Bool} (h : m.wf = true) :
    (m.hRunTrail x y c).wf = true := by
  unfold Memory.hRunTrail; split
  · exact Memory.wf_applyMask h
  · exact h

theorem Memory.wf_hRun {m : Memory} {x y len : Nat} {c : Bool} (h : m.wf = true) :
    (m.hRun x y len c).wf = true := by
  unfold Memory.hRun
  split
  · exact h
  · split
    · exact Memory.wf_applyMask h
    · exact Memory.wf_fillBytes (Memory.wf_hRunTrail (Memory.wf_hRunLead h))

theorem Memory.pixel_hRunLead {m : Memory} {x y x' y' : Nat} {c : Bool} (h : m.wf = true)
    (hx : x < 65536) (hx' : x' < 65536) :
    (m.hRunLead x y c).pixel x' y' =
      if y' = y ∧ x' / 8 = x / 8 ∧ x ≤ x' ∧ x % 8 ≠ 0 then c else m.pixel x' y' := by
  have h8 : x' % 8 < 8 := Nat.mod_lt _ (by decide)
  unfold Memory.hRunLead
  split
  · rw [Memory.pixel_applyMask h (by omega) hx', capMask_getLsbD h8]
    refine if_congr ?_ rfl rfl
    rw [decide_eq_true_eq]; omega
  · rw [if_neg (by omega)]

theorem Memory.pixel_hRunTrail {m : Memory} {e y x' y' : Nat} {c : Bool} (h : m.wf = true)
    (he : e ≤ 65536) (hx' : x' < 65536) :
    (m.hRunTrail e y c).pixel x' y' =
      if y' = y ∧ x' / 8 = e / 8 ∧ x' < e then c else m.pixel x' y' := by
  have h8 : x' % 8 < 8 := Nat.mod_lt _ (by decide)
  unfold Memory.hRunTrail
  split
  · rw [Memory.pixel_applyMask h (by omega) hx', shiftMask_getLsbD (Nat.mod_lt _ (by decide)) h8]
    refine if_congr ?_ rfl rfl
    rw [decide_eq_true_eq]; omega
  · rw [if_neg (by omega)]

/-- The run-masking algorithm paints exactly the run (41_raster_runs.md R108, R109). -/
theorem Memory.pixel_hRun {m : Memory} {x y len x' y' : Nat} {c : Bool} (h : m.wf = true)
    (hx : x + len ≤ 65536) (hx' : x' < 65536) :
    (m.hRun x y len c).pixel x' y' =
      if y' = y ∧ x ≤ x' ∧ x' < x + len then c else m.pixel x' y' := by
  have h8 : x' % 8 < 8 := Nat.mod_lt _ (by decide)
  unfold Memory.hRun
  split
  · rw [if_neg (by omega)]
  · split
    · rw [Memory.pixel_applyMask h (by omega) hx', BitVec.getLsbD_and, capMask_getLsbD h8,
        shiftMask_getLsbD (by omega) h8]
      refine if_congr ?_ rfl rfl
      rw [Bool.and_eq_true, decide_eq_true_eq, decide_eq_true_eq]; omega
    · have hf : firstFull x ≤ (x + len) / 8 := by unfold firstFull; split <;> omega
      rw [Memory.pixel_fillBytes (Memory.wf_hRunTrail (Memory.wf_hRunLead h)) (by omega) hx',
        fillByte_getLsbD h8, Memory.pixel_hRunTrail (Memory.wf_hRunLead h) hx hx',
        Memory.pixel_hRunLead h (by omega) hx']
      by_cases hin : y' = y ∧ x ≤ x' ∧ x' < x + len
      · rw [if_pos hin]
        by_cases h1 : y' = y ∧ firstFull x ≤ x' / 8 ∧ x' / 8 < firstFull x + ((x + len) / 8 - firstFull x)
        · rw [if_pos h1]
        · rw [if_neg h1]
          by_cases h2 : y' = y ∧ x' / 8 = (x + len) / 8 ∧ x' < x + len
          · rw [if_pos h2]
          · rw [if_neg h2, if_pos]
            unfold firstFull at h1
            split at h1 <;> omega
      · have hf' : x ≤ 8 * firstFull x := by unfold firstFull; split <;> omega
        rw [if_neg hin, if_neg (by omega), if_neg (by omega), if_neg (by omega)]

theorem Memory.within_hRun {m : Memory} {x y len h bpr : Nat} {c : Bool}
    (hm : m.within h bpr = true) (hy : y < h) (hx : x + len ≤ 8 * bpr) (hb : bpr ≤ 8192) :
    (m.hRun x y len c).within h bpr = true := by
  unfold Memory.hRun
  split
  · exact hm
  · split
    · exact Memory.within_applyMask hm hy (by omega) hb
    · have h1 : (m.hRunLead x y c).within h bpr = true := by
        unfold Memory.hRunLead; split
        · exact Memory.within_applyMask hm hy (by omega) hb
        · exact hm
      have h2 : ((m.hRunLead x y c).hRunTrail (x + len) y c).within h bpr = true := by
        unfold Memory.hRunTrail; split
        · exact Memory.within_applyMask h1 hy (by omega) hb
        · exact h1
      have hf : firstFull x ≤ (x + len) / 8 := by unfold firstFull; split <;> omega
      exact Memory.within_fillBytes h2 hy (by omega) hb

theorem Memory.wf_fillRows {m : Memory} {x len y n : Nat} {c : Bool} (h : m.wf = true) :
    (m.fillRows x len c y n).wf = true := by
  induction n generalizing m y with
  | zero => exact h
  | succ n ih => exact ih (Memory.wf_hRun h)

/-- One run on each row paints the box (42_raster_shapes.md R125). -/
theorem Memory.pixel_fillRows {m : Memory} {x len y n x' y' : Nat} {c : Bool} (h : m.wf = true)
    (hx : x + len ≤ 65536) (hx' : x' < 65536) :
    (m.fillRows x len c y n).pixel x' y' =
      if (y ≤ y' ∧ y' < y + n) ∧ x ≤ x' ∧ x' < x + len then c else m.pixel x' y' := by
  induction n generalizing m y with
  | zero => simp only [Memory.fillRows]; rw [if_neg (by omega)]
  | succ n ih =>
    simp only [Memory.fillRows]
    rw [ih (Memory.wf_hRun h), Memory.pixel_hRun h hx hx']
    by_cases h1 : (y + 1 ≤ y' ∧ y' < y + 1 + n) ∧ x ≤ x' ∧ x' < x + len
    · rw [if_pos h1, if_pos (by omega)]
    · rw [if_neg h1]
      by_cases h2 : y' = y ∧ x ≤ x' ∧ x' < x + len
      · rw [if_pos h2, if_pos (by omega)]
      · rw [if_neg h2, if_neg (by omega)]

theorem Memory.within_fillRows {m : Memory} {x len y n h bpr : Nat} {c : Bool}
    (hm : m.within h bpr = true) (hy : y + n ≤ h) (hx : x + len ≤ 8 * bpr) (hb : bpr ≤ 8192) :
    (m.fillRows x len c y n).within h bpr = true := by
  induction n generalizing m y with
  | zero => exact hm
  | succ n ih => exact ih (Memory.within_hRun hm (by omega) hx hb) (by omega)

/-! ## Vertical runs -/

theorem Memory.wf_vRun {m : Memory} {x y h : Nat} {c : Bool} (hm : m.wf = true) :
    (m.vRun x y h c).wf = true := by
  induction h generalizing m y with
  | zero => exact hm
  | succ h ih => exact ih (Memory.wf_setBit hm)

/-- VRun paints its column (41_raster_runs.md R111). -/
theorem Memory.pixel_vRun {m : Memory} {x y h x' y' : Nat} {c : Bool} (hm : m.wf = true)
    (hx : x < 65536) (hx' : x' < 65536) :
    (m.vRun x y h c).pixel x' y' =
      if x' = x ∧ y ≤ y' ∧ y' < y + h then c else m.pixel x' y' := by
  induction h generalizing m y with
  | zero => simp only [Memory.vRun]; rw [if_neg (by omega)]
  | succ h ih =>
    simp only [Memory.vRun]
    rw [ih (Memory.wf_setBit hm), Memory.pixel_setBit hm hx hx']
    by_cases h1 : x' = x ∧ y + 1 ≤ y' ∧ y' < y + 1 + h
    · rw [if_pos h1, if_pos (by omega)]
    · rw [if_neg h1]
      by_cases h2 : x' = x ∧ y' = y
      · rw [if_pos h2, if_pos (by omega)]
      · rw [if_neg h2, if_neg (by omega)]

theorem Memory.within_vRun {m : Memory} {x y n h bpr : Nat} {c : Bool}
    (hm : m.within h bpr = true) (hy : y + n ≤ h) (hx : x / 8 < bpr) (hb : bpr ≤ 8192) :
    (m.vRun x y n c).within h bpr = true := by
  induction n generalizing m y with
  | zero => exact hm
  | succ n ih => exact ih (Memory.within_setBit hm (by omega) hx hb) (by omega)

/-! ## Lists of pixels -/

theorem Memory.wf_drawPixels {m : Memory} {ps : List (Nat × Nat)} {c : Bool} (h : m.wf = true) :
    (m.drawPixels ps c).wf = true := by
  induction ps generalizing m with
  | nil => exact h
  | cons p ps ih => exact ih (Memory.wf_setBit h)

/-- A list of pixels paints exactly its members. -/
theorem Memory.pixel_drawPixels {m : Memory} {ps : List (Nat × Nat)} {x' y' : Nat} {c : Bool}
    (h : m.wf = true) (hps : ∀ p ∈ ps, p.1 < 65536) (hx' : x' < 65536) :
    (m.drawPixels ps c).pixel x' y' = if (x', y') ∈ ps then c else m.pixel x' y' := by
  induction ps generalizing m with
  | nil => simp [Memory.drawPixels]
  | cons p ps ih =>
    have hp := hps p (List.mem_cons_self ..)
    have hps' : ∀ q ∈ ps, q.1 < 65536 := fun q hq => hps q (List.mem_cons_of_mem _ hq)
    have := ih (m := m.setBit p.1 p.2 c) (Memory.wf_setBit h) hps'
    simp only [Memory.drawPixels, List.foldl_cons] at this ⊢
    rw [this, Memory.pixel_setBit h hp hx']
    obtain ⟨a, b⟩ := p
    by_cases h1 : (x', y') ∈ ps
    · simp [h1]
    · by_cases h2 : x' = a ∧ y' = b
      · simp [h2]
      · have : ¬ (x', y') = (a, b) := by simpa using h2
        simp [h1, h2]

theorem Memory.within_drawPixels {m : Memory} {ps : List (Nat × Nat)} {c : Bool} {h bpr : Nat}
    (hm : m.within h bpr = true) (hps : ∀ p ∈ ps, p.1 / 8 < bpr ∧ p.2 < h) (hb : bpr ≤ 8192) :
    (m.drawPixels ps c).within h bpr = true := by
  induction ps generalizing m with
  | nil => exact hm
  | cons p ps ih =>
    have hp := hps p (List.mem_cons_self ..)
    exact ih (Memory.within_setBit hm hp.2 hp.1 hb) fun q hq => hps q (List.mem_cons_of_mem _ hq)

/-! ## Glyphs -/

theorem Memory.wf_foldl_setBit {ι : Type} (l : List ι) (f : ι → Nat × Nat × Bool) {m : Memory}
    (h : m.wf = true) :
    (l.foldl (fun m k => m.setBit (f k).1 (f k).2.1 (f k).2.2) m).wf = true := by
  induction l generalizing m with
  | nil => exact h
  | cons k l ih => exact ih (Memory.wf_setBit h)

theorem Memory.wf_drawColumn {m : Memory} {x y : Nat} {c : Bool} {line : Byte} (h : m.wf = true) :
    (m.drawColumn x y c line).wf = true :=
  Memory.wf_foldl_setBit _ (fun row => (x, y + row, if line.getLsbD row then c else !c)) h

/-- One column of a cell (43_glyphs.md R141). -/
theorem Memory.pixel_drawColumn {m : Memory} {x y x' y' : Nat} {c : Bool} {line : Byte}
    (h : m.wf = true) (hx : x < 65536) (hx' : x' < 65536) :
    (m.drawColumn x y c line).pixel x' y' =
      if x' = x ∧ y ≤ y' ∧ y' < y + 8 then (if line.getLsbD (y' - y) then c else !c)
      else m.pixel x' y' := by
  unfold Memory.drawColumn
  simp only [List.foldl_cons, List.foldl_nil]
  have w0 := Memory.wf_setBit (x := x) (y := y + 0) (c := if line.getLsbD 0 then c else !c) h
  have w1 := Memory.wf_setBit (x := x) (y := y + 1) (c := if line.getLsbD 1 then c else !c) w0
  have w2 := Memory.wf_setBit (x := x) (y := y + 2) (c := if line.getLsbD 2 then c else !c) w1
  have w3 := Memory.wf_setBit (x := x) (y := y + 3) (c := if line.getLsbD 3 then c else !c) w2
  have w4 := Memory.wf_setBit (x := x) (y := y + 4) (c := if line.getLsbD 4 then c else !c) w3
  have w5 := Memory.wf_setBit (x := x) (y := y + 5) (c := if line.getLsbD 5 then c else !c) w4
  have w6 := Memory.wf_setBit (x := x) (y := y + 6) (c := if line.getLsbD 6 then c else !c) w5
  rw [Memory.pixel_setBit w6 hx hx', Memory.pixel_setBit w5 hx hx', Memory.pixel_setBit w4 hx hx',
    Memory.pixel_setBit w3 hx hx', Memory.pixel_setBit w2 hx hx', Memory.pixel_setBit w1 hx hx',
    Memory.pixel_setBit w0 hx hx', Memory.pixel_setBit h hx hx']
  by_cases hin : x' = x ∧ y ≤ y' ∧ y' < y + 8
  · rw [if_pos hin]
    obtain ⟨rfl, h1, h2⟩ := hin
    have : y' - y = 0 ∨ y' - y = 1 ∨ y' - y = 2 ∨ y' - y = 3 ∨ y' - y = 4 ∨ y' - y = 5
        ∨ y' - y = 6 ∨ y' - y = 7 := by omega
    rcases this with hk | hk | hk | hk | hk | hk | hk | hk <;>
      (rw [hk]; have hy : y' = y + (y' - y) := by omega
       rw [hk] at hy; subst hy; simp)
  · rw [if_neg hin]
    repeat rw [if_neg (by omega)]

theorem Memory.wf_drawGlyph {m : Memory} {cfg : Config} {x y : Nat} {code : Byte} {c : Bool}
    (h : m.wf = true) : (m.drawGlyph cfg x y code c).wf = true := by
  unfold Memory.drawGlyph
  simp only [List.foldl_cons, List.foldl_nil]
  exact Memory.wf_drawColumn (Memory.wf_drawColumn (Memory.wf_drawColumn (Memory.wf_drawColumn
    (Memory.wf_drawColumn h))))

/-- A pixel outside the cell keeps its value (43_glyphs.md R141). -/
theorem Memory.pixel_drawGlyph_outside {m : Memory} {cfg : Config} {x y x' y' : Nat} {code : Byte}
    {c : Bool} (h : m.wf = true) (hx : x + 5 ≤ 65536) (hx' : x' < 65536)
    (ho : ¬ (x ≤ x' ∧ x' < x + 5 ∧ y ≤ y' ∧ y' < y + 8)) :
    (m.drawGlyph cfg x y code c).pixel x' y' = m.pixel x' y' := by
  unfold Memory.drawGlyph
  simp only [List.foldl_cons, List.foldl_nil]
  have w0 := Memory.wf_drawColumn (x := x + (0 : Fin 5).val) (y := y) (c := c) (line := fontByte cfg code 0) h
  have w1 := Memory.wf_drawColumn (x := x + (1 : Fin 5).val) (y := y) (c := c) (line := fontByte cfg code 1) w0
  have w2 := Memory.wf_drawColumn (x := x + (2 : Fin 5).val) (y := y) (c := c) (line := fontByte cfg code 2) w1
  have w3 := Memory.wf_drawColumn (x := x + (3 : Fin 5).val) (y := y) (c := c) (line := fontByte cfg code 3) w2
  have v : (0 : Fin 5).val = 0 ∧ (1 : Fin 5).val = 1 ∧ (2 : Fin 5).val = 2 ∧ (3 : Fin 5).val = 3
    ∧ (4 : Fin 5).val = 4 := by decide
  rw [Memory.pixel_drawColumn w3 (by omega) hx', Memory.pixel_drawColumn w2 (by omega) hx',
    Memory.pixel_drawColumn w1 (by omega) hx', Memory.pixel_drawColumn w0 (by omega) hx',
    Memory.pixel_drawColumn h (by omega) hx']
  repeat rw [if_neg (by omega)]

/-- A pixel of the cell is the colour where the glyph has a bit, the inverse colour elsewhere
(43_glyphs.md R141). -/
theorem Memory.pixel_drawGlyph_inside {m : Memory} {cfg : Config} {x y row : Nat} {code : Byte}
    {c : Bool} (h : m.wf = true) (hx : x + 5 ≤ 65536) (col : Fin 5) (hr : row < 8) :
    (m.drawGlyph cfg x y code c).pixel (x + col.val) (y + row) =
      if (fontByte cfg code col).getLsbD row then c else !c := by
  unfold Memory.drawGlyph
  simp only [List.foldl_cons, List.foldl_nil]
  have w0 := Memory.wf_drawColumn (x := x + (0 : Fin 5).val) (y := y) (c := c) (line := fontByte cfg code 0) h
  have w1 := Memory.wf_drawColumn (x := x + (1 : Fin 5).val) (y := y) (c := c) (line := fontByte cfg code 1) w0
  have w2 := Memory.wf_drawColumn (x := x + (2 : Fin 5).val) (y := y) (c := c) (line := fontByte cfg code 2) w1
  have w3 := Memory.wf_drawColumn (x := x + (3 : Fin 5).val) (y := y) (c := c) (line := fontByte cfg code 3) w2
  have v : (0 : Fin 5).val = 0 ∧ (1 : Fin 5).val = 1 ∧ (2 : Fin 5).val = 2 ∧ (3 : Fin 5).val = 3
    ∧ (4 : Fin 5).val = 4 := by decide
  have hc : x + col.val < 65536 := by omega
  rw [Memory.pixel_drawColumn w3 (by omega) hc, Memory.pixel_drawColumn w2 (by omega) hc,
    Memory.pixel_drawColumn w1 (by omega) hc, Memory.pixel_drawColumn w0 (by omega) hc,
    Memory.pixel_drawColumn h (by omega) hc]
  have hy : y + row - y = row := by omega
  rw [hy]
  have hcol : col = 0 ∨ col = 1 ∨ col = 2 ∨ col = 3 ∨ col = 4 := by omega
  rcases hcol with rfl | rfl | rfl | rfl | rfl <;> simp [hr]

theorem Memory.within_drawColumn {m : Memory} {x y h bpr : Nat} {c : Bool} {line : Byte}
    (hm : m.within h bpr = true) (hy : y + 8 ≤ h) (hx : x / 8 < bpr) (hb : bpr ≤ 8192) :
    (m.drawColumn x y c line).within h bpr = true := by
  unfold Memory.drawColumn
  simp only [List.foldl_cons, List.foldl_nil]
  iterate 8 refine Memory.within_setBit ?_ (by omega) hx hb
  exact hm

theorem Memory.within_drawGlyph {m : Memory} {cfg : Config} {x y h bpr : Nat} {code : Byte} {c : Bool}
    (hm : m.within h bpr = true) (hy : y + 8 ≤ h) (hx : x + 5 ≤ 8 * bpr) (hb : bpr ≤ 8192) :
    (m.drawGlyph cfg x y code c).within h bpr = true := by
  unfold Memory.drawGlyph
  simp only [List.foldl_cons, List.foldl_nil]
  have v : (0 : Fin 5).val = 0 ∧ (1 : Fin 5).val = 1 ∧ (2 : Fin 5).val = 2 ∧ (3 : Fin 5).val = 3
    ∧ (4 : Fin 5).val = 4 := by decide
  iterate 5 refine Memory.within_drawColumn ?_ hy (by omega) hb
  exact hm

/-! ## Texture rows -/

theorem Memory.wf_blitRow {m : Memory} {y bpr i : Nat} {vs : List Byte} (h : m.wf = true) :
    (m.blitRow y bpr i vs).wf = true := by
  induction vs generalizing m i with
  | nil => exact h
  | cons v vs ih =>
    simp only [Memory.blitRow]
    split
    · exact ih (Memory.wf_setByte h)
    · exact ih h

/-- The bytes of one texture row that fit the panel (42_raster_shapes.md R130). -/
theorem Memory.byteAt_blitRow {m : Memory} {y bpr i y' i' : Nat} {vs : List Byte} (h : m.wf = true)
    (hb : bpr ≤ 8192) (hi' : i' < 8192) :
    (m.blitRow y bpr i vs).byteAt y' i' =
      if y' = y ∧ i ≤ i' ∧ i' < i + vs.length ∧ i' < bpr then vs.getD (i' - i) 0
      else m.byteAt y' i' := by
  induction vs generalizing m i with
  | nil => simp only [Memory.blitRow, List.length_nil]; rw [if_neg (by omega)]
  | cons v vs ih =>
    simp only [Memory.blitRow, List.length_cons]
    by_cases hlt : i < bpr
    · rw [if_pos hlt, ih (Memory.wf_setByte h), Memory.byteAt_setByte h (by omega) hi']
      by_cases h1 : y' = y ∧ i + 1 ≤ i' ∧ i' < i + 1 + vs.length ∧ i' < bpr
      · rw [if_pos h1, if_pos (by omega)]
        have : i' - i = (i' - (i + 1)) + 1 := by omega
        rw [this, List.getD_cons_succ]
      · rw [if_neg h1]
        by_cases h2 : y' = y ∧ i' = i
        · rw [if_pos h2, if_pos (by omega)]
          have : i' - i = 0 := by omega
          rw [this, List.getD_cons_zero]
        · rw [if_neg h2, if_neg (by omega)]
    · rw [if_neg hlt, ih h, if_neg (by omega), if_neg (by omega)]

theorem Memory.within_blitRow {m : Memory} {y bpr i h : Nat} {vs : List Byte}
    (hm : m.within h bpr = true) (hy : y < h) (hb : bpr ≤ 8192) :
    (m.blitRow y bpr i vs).within h bpr = true := by
  induction vs generalizing m i with
  | nil => exact hm
  | cons v vs ih =>
    simp only [Memory.blitRow]
    split
    · rename_i hlt
      exact ih (Memory.within_setByte hm hy hlt hb)
    · exact ih hm

theorem Memory.wf_blitRows {m : Memory} {h bpr bc y : Nat} {rs : List (List Byte)} (hm : m.wf = true) :
    (m.blitRows h bpr bc y rs).wf = true := by
  induction rs generalizing m y with
  | nil => exact hm
  | cons r rs ih =>
    simp only [Memory.blitRows]
    split
    · exact hm
    · exact ih (Memory.wf_blitRow hm)

/-- Texture rows, clipped at the bottom and at the right (42_raster_shapes.md R130). -/
theorem Memory.byteAt_blitRows {m : Memory} {h bpr bc y y' i' : Nat} {rs : List (List Byte)}
    (hm : m.wf = true) (hb : bpr ≤ 8192) (hi' : i' < 8192) :
    (m.blitRows h bpr bc y rs).byteAt y' i' =
      if (y ≤ y' ∧ y' < y + rs.length ∧ y' < h)
          ∧ bc ≤ i' ∧ i' < bc + (rs.getD (y' - y) []).length ∧ i' < bpr
      then (rs.getD (y' - y) []).getD (i' - bc) 0 else m.byteAt y' i' := by
  induction rs generalizing m y with
  | nil => simp only [Memory.blitRows, List.length_nil]; rw [if_neg (by omega)]
  | cons r rs ih =>
    simp only [Memory.blitRows, List.length_cons]
    by_cases hh : h ≤ y
    · rw [if_pos hh, if_neg (by omega)]
    · rw [if_neg hh, ih (Memory.wf_blitRow hm), Memory.byteAt_blitRow hm hb hi']
      by_cases hy : y' = y
      · have hz : y' - y = 0 := by omega
        rw [if_neg (by omega), hz, List.getD_cons_zero]
        refine if_congr ?_ rfl rfl
        omega
      · rw [if_neg (c := y' = y ∧ _) (by omega)]
        by_cases hge : y + 1 ≤ y'
        · have : y' - y = (y' - (y + 1)) + 1 := by omega
          rw [this, List.getD_cons_succ]
          refine if_congr ?_ rfl rfl
          omega
        · rw [if_neg (by omega), if_neg (by omega)]

theorem Memory.within_blitRows {m : Memory} {h bpr bc y : Nat} {rs : List (List Byte)}
    (hm : m.within h bpr = true) (hb : bpr ≤ 8192) :
    (m.blitRows h bpr bc y rs).within h bpr = true := by
  induction rs generalizing m y with
  | nil => exact hm
  | cons r rs ih =>
    simp only [Memory.blitRows]
    split
    · exact hm
    · exact ih (Memory.within_blitRow hm (by omega) hb)

theorem payloadRows_length {len n : Nat} {bytes : List Byte} : (payloadRows len n bytes).length = n := by
  induction n generalizing bytes with
  | zero => rfl
  | succ n ih => simp [payloadRows, ih]

/-- Row `k` of a payload is its `k`-th piece of `len` bytes (30_encoding.md R75). -/
theorem payloadRows_getD {len n k : Nat} {bytes : List Byte} (hk : k < n) :
    (payloadRows len n bytes).getD k [] = (bytes.drop (k * len)).take len := by
  induction n generalizing bytes k with
  | zero => omega
  | succ n ih =>
    cases k with
    | zero => simp [payloadRows]
    | succ k =>
      simp only [payloadRows, List.getD_cons_succ]
      rw [ih (by omega), List.drop_drop, Nat.succ_mul, Nat.add_comm]

end Sys2Proof.Machine
end

