-- ==== Sys2Proof/Laws/Encoding.lean ====
section
/-! SUPPORT. The byte order of the descriptor and the one inversion of the decoder. -/

namespace Sys2Proof

@[simp] theorem U16.ofBytes_lo_hi (v : U16) : U16.ofBytes v.lo v.hi = v := by
  refine BitVec.eq_of_getLsbD_eq fun k hk => ?_
  simp only [U16.ofBytes, U16.lo, U16.hi, BitVec.getLsbD_or, BitVec.getLsbD_shiftLeft,
    BitVec.getLsbD_setWidth, BitVec.getLsbD_ushiftRight]
  by_cases h : k < 8
  · simp [h, hk]
  · have : 8 + (k - 8) = k := by omega
    have h2 : k - 8 < 8 := by omega
    have h3 : k - 8 < 16 := by omega
    simp [h, hk, this, h2, h3]

@[simp] theorem U16.lo_ofBytes (a b : Byte) : (U16.ofBytes a b).lo = a := by
  refine BitVec.eq_of_getLsbD_eq fun k hk => ?_
  simp [U16.ofBytes, U16.lo, hk]

@[simp] theorem U16.hi_ofBytes (a b : Byte) : (U16.ofBytes a b).hi = b := by
  refine BitVec.eq_of_getLsbD_eq fun k hk => ?_
  have h1 : 8 + k < 16 := by omega
  have h2 : ¬ 8 + k < 8 := by omega
  have h3 : 8 + k - 8 = k := by omega
  have h4 : k < 16 := by omega
  simp [U16.ofBytes, U16.hi, hk, h1, h4]

@[simp] theorem Descriptor.colourByte_bit0 (d : Descriptor) : d.colourByte.getLsbD 0 = d.c := by
  obtain ⟨op, c, rsv, A, B, C, D⟩ := d
  cases c <;> simp [Descriptor.colourByte]

@[simp] theorem Descriptor.colourByte_rsv (d : Descriptor) :
    (d.colourByte >>> 1).setWidth 7 = d.rsv := by
  refine BitVec.eq_of_getLsbD_eq fun k hk => ?_
  obtain ⟨op, c, rsv, A, B, C, D⟩ := d
  have h1 : 1 + k < 8 := by omega
  have h3 : k < 8 := by omega
  cases c <;> simp [Descriptor.colourByte, hk, h1, h3]

/-- The ten bytes of a descriptor read back as the descriptor (30_encoding.md R72). -/
theorem decode_descriptor (d : Descriptor) (rest : List Byte) :
    decode (d.toBytes ++ rest) = d.decode rest := by
  simp only [decode, Descriptor.toBytes, List.cons_append, List.nil_append, Descriptor.ofBytes,
    Descriptor.colourByte_bit0, Descriptor.colourByte_rsv, U16.ofBytes_lo_hi]

theorem Descriptor.colourByte_ofBytes (b : Byte) (op : Byte) (A B C D : U16) :
    (Descriptor.mk op (b.getLsbD 0) ((b >>> 1).setWidth 7) A B C D).colourByte = b := by
  revert b
  simp only [Descriptor.colourByte]
  decide

/-- Any ten bytes are the bytes of the descriptor read from them. -/
theorem Descriptor.toBytes_ofBytes (b0 b1 b2 b3 b4 b5 b6 b7 b8 b9 : Byte) :
    (Descriptor.ofBytes b0 b1 b2 b3 b4 b5 b6 b7 b8 b9).toBytes =
      [b0, b1, b2, b3, b4, b5, b6, b7, b8, b9] := by
  simp only [Descriptor.toBytes, Descriptor.ofBytes, Descriptor.colourByte_ofBytes, U16.lo_ofBytes,
    U16.hi_ofBytes]

theorem Descriptor.length_toBytes (d : Descriptor) : d.toBytes.length = 10 := rfl

/-- Everything the decoder can answer: with ten bytes or more it reads a descriptor. -/
theorem decode_cases (bs : List Byte) :
    (bs.length < 10 ∧ decode bs = .incomplete)
      ∨ ∃ (d : Descriptor) (rest : List Byte), bs = d.toBytes ++ rest ∧ decode bs = d.decode rest := by
  match bs with
  | b0 :: b1 :: b2 :: b3 :: b4 :: b5 :: b6 :: b7 :: b8 :: b9 :: rest =>
    refine .inr ⟨Descriptor.ofBytes b0 b1 b2 b3 b4 b5 b6 b7 b8 b9, rest, ?_, rfl⟩
    rw [Descriptor.toBytes_ofBytes]; rfl
  | [] | [_] | [_, _] | [_, _, _] | [_, _, _, _] | [_, _, _, _, _] | [_, _, _, _, _, _]
  | [_, _, _, _, _, _, _] | [_, _, _, _, _, _, _, _] | [_, _, _, _, _, _, _, _, _] =>
    exact .inl ⟨by simp, rfl⟩

/-- What a descriptor that selects an operation decodes to. -/
theorem Descriptor.decode_of_select {d : Descriptor} {k : Opcode} (h : d.select = .ok k)
    (rest : List Byte) :
    d.decode rest =
      .instr (d.operation (rest.take (d.payloadLength k)) k) (rest.drop (d.payloadLength k)) := by
  simp [Descriptor.decode, h]

/-- When a descriptor selects an operation: its opcode, no reserved bit, no unused field
(30_encoding.md R77). -/
theorem Descriptor.select_eq_ok {d : Descriptor} {k : Opcode} :
    d.select = .ok k ↔ opcodeOf d.op = some k ∧ d.rsv = 0 ∧ d.unusedZero k.fields = true := by
  unfold Descriptor.select
  cases h : opcodeOf d.op with
  | none => simp
  | some j =>
    by_cases hr : d.rsv = 0
    · by_cases hu : d.unusedZero j.fields = true
      · simp only [hr, hu, ne_eq, not_true_eq_false, if_false, if_true, Except.ok.injEq,
          Option.some.injEq, true_and]
        constructor
        · rintro rfl; exact ⟨rfl, hu⟩
        · exact fun h => h.1
      · simp only [hr, hu, ne_eq, not_true_eq_false, if_false, Bool.false_eq_true, Option.some.injEq,
          true_and]
        constructor
        · intro h; cases h
        · rintro ⟨rfl, h⟩; exact absurd h hu
    · simp only [hr, ne_eq, not_false_eq_true, if_true, false_and, and_false, iff_false]
      intro h; cases h

end Sys2Proof
end

