-- ==== Sys2Proof/Laws/State.lean ====
section
/-! SUPPORT. One lemma per field and update of the state, true by rfl. -/

namespace Sys2Proof.Machine

section record
variable (s : State) (sent : Option Transmission) (r : Result)
@[simp] theorem State.record_width : (s.record sent r).width = s.width := rfl
@[simp] theorem State.record_height : (s.record sent r).height = s.height := rfl
@[simp] theorem State.record_fb : (s.record sent r).fb = s.fb := rfl
@[simp] theorem State.record_vcom : (s.record sent r).vcom = s.vcom := rfl
@[simp] theorem State.record_pr : (s.record sent r).pr = s.pr := rfl
@[simp] theorem State.record_cfg : (s.record sent r).cfg = s.cfg := rfl
@[simp] theorem State.record_port : (s.record sent r).port = s.port := rfl
@[simp] theorem State.record_replies : (s.record sent r).replies = s.replies := rfl
@[simp] theorem State.record_writes : (s.record sent r).writes = s.writes := rfl
@[simp] theorem State.record_trace :
    (s.record sent r).trace = { sent := sent, result := r } :: s.trace := rfl
@[simp] theorem State.record_bpr : (s.record sent r).bpr = s.bpr := rfl
end record

section done
variable (s : State) (v : Value)
@[simp] theorem State.done_width : (s.done v).width = s.width := rfl
@[simp] theorem State.done_height : (s.done v).height = s.height := rfl
@[simp] theorem State.done_fb : (s.done v).fb = s.fb := rfl
@[simp] theorem State.done_vcom : (s.done v).vcom = s.vcom := rfl
@[simp] theorem State.done_pr : (s.done v).pr = s.pr := rfl
@[simp] theorem State.done_cfg : (s.done v).cfg = s.cfg := rfl
@[simp] theorem State.done_port : (s.done v).port = s.port := rfl
@[simp] theorem State.done_replies : (s.done v).replies = s.replies := rfl
@[simp] theorem State.done_writes : (s.done v).writes = s.writes := rfl
@[simp] theorem State.done_trace :
    (s.done v).trace = { sent := none, result := .ok v } :: s.trace := rfl
@[simp] theorem State.done_frames : (s.done v).frames = s.frames := rfl
end done

section failed
variable (s : State) (e : ErrorKind)
@[simp] theorem State.failed_width : (s.failed e).width = s.width := rfl
@[simp] theorem State.failed_height : (s.failed e).height = s.height := rfl
@[simp] theorem State.failed_fb : (s.failed e).fb = s.fb := rfl
@[simp] theorem State.failed_vcom : (s.failed e).vcom = s.vcom := rfl
@[simp] theorem State.failed_pr : (s.failed e).pr = s.pr := rfl
@[simp] theorem State.failed_cfg : (s.failed e).cfg = s.cfg := rfl
@[simp] theorem State.failed_port : (s.failed e).port = s.port := rfl
@[simp] theorem State.failed_replies : (s.failed e).replies = s.replies := rfl
@[simp] theorem State.failed_writes : (s.failed e).writes = s.writes := rfl
@[simp] theorem State.failed_trace :
    (s.failed e).trace = { sent := none, result := .error e } :: s.trace := rfl
@[simp] theorem State.failed_frames : (s.failed e).frames = s.frames := rfl
end failed

section drawn
variable (s : State) (m : Memory)
@[simp] theorem State.drawn_width : (s.drawn m).width = s.width := rfl
@[simp] theorem State.drawn_height : (s.drawn m).height = s.height := rfl
@[simp] theorem State.drawn_fb : (s.drawn m).fb = m := rfl
@[simp] theorem State.drawn_vcom : (s.drawn m).vcom = s.vcom := rfl
@[simp] theorem State.drawn_pr : (s.drawn m).pr = s.pr := rfl
@[simp] theorem State.drawn_cfg : (s.drawn m).cfg = s.cfg := rfl
@[simp] theorem State.drawn_port : (s.drawn m).port = s.port := rfl
@[simp] theorem State.drawn_replies : (s.drawn m).replies = s.replies := rfl
@[simp] theorem State.drawn_writes : (s.drawn m).writes = s.writes := rfl
@[simp] theorem State.drawn_trace :
    (s.drawn m).trace = { sent := none, result := .ok .nothing } :: s.trace := rfl
@[simp] theorem State.drawn_frames : (s.drawn m).frames = s.frames := rfl
end drawn

section transmitted
variable (s : State) (f : List Byte)
@[simp] theorem State.transmitted_width : (s.transmitted f).width = s.width := rfl
@[simp] theorem State.transmitted_height : (s.transmitted f).height = s.height := rfl
@[simp] theorem State.transmitted_fb : (s.transmitted f).fb = s.fb := rfl
@[simp] theorem State.transmitted_vcom : (s.transmitted f).vcom = !s.vcom := rfl
@[simp] theorem State.transmitted_pr : (s.transmitted f).pr = s.pr := rfl
@[simp] theorem State.transmitted_cfg : (s.transmitted f).cfg = s.cfg := rfl
@[simp] theorem State.transmitted_port : (s.transmitted f).port = s.port := rfl
@[simp] theorem State.transmitted_replies : (s.transmitted f).replies = s.replies.tail := rfl
@[simp] theorem State.transmitted_writes : (s.transmitted f).writes = s.writes + 1 := rfl
@[simp] theorem State.transmitted_trace :
    (s.transmitted f).trace =
      { sent := some { bytes := f, ok := s.transportOk },
        result := if s.transportOk then .ok .nothing else .error .transportError } :: s.trace := rfl
@[simp] theorem State.transmitted_frames :
    (s.transmitted f).frames = { bytes := f, ok := s.transportOk } :: s.frames := rfl
end transmitted

/-- Everything Send can do (44_protocol.md R156, 60_exceptions.md R201). -/
theorem State.send_cases (s : State) (f : List Byte) :
    (s.transportSilent = true ∧ s.send f = .fault .transportHang) ∨
      (s.transportSilent = false ∧ s.send f = .next (s.transmitted f)) := by
  cases h : s.transportSilent <;> simp [State.send, h]

/-- A Send that answers a next state left exactly `transmitted`. -/
theorem State.send_next {s t : State} {f : List Byte} (h : s.send f = .next t) :
    t = s.transmitted f := by
  rcases s.send_cases f with ⟨_, h'⟩ | ⟨_, h'⟩ <;> rw [h'] at h <;> cases h
  rfl

/-- A Send never refuses. -/
theorem State.send_ne_refused (s : State) (f : List Byte) (r : Refusal) : s.send f ≠ .refused r := by
  rcases s.send_cases f with ⟨_, h'⟩ | ⟨_, h'⟩ <;> rw [h'] <;> simp

end Sys2Proof.Machine
end

