-- ==== Sys2Proof/Laws/Frames.lean ====
section
/-! SUPPORT. The frames of 30_encoding.md R61: their rows as a list over row numbers, and their lengths. -/

namespace Sys2Proof.Machine

theorem State.row_eq_map (s : State) (y : Nat) :
    s.row y = (List.range s.bpr).map (fun i => s.fb.byteAt y i) := by
  have : ∀ i n, s.fb.bytesFrom y i n = (List.range' i n).map (fun j => s.fb.byteAt y j) := by
    intro i n
    induction n generalizing i with
    | zero => rfl
    | succ n ih => simp [Memory.bytesFrom, ih, List.range'_succ]
  rw [State.row, this, List.range_eq_range']

@[simp] theorem State.length_row (s : State) (y : Nat) : (s.row y).length = s.bpr := by
  simp [State.row_eq_map]

theorem State.frameRows_eq_flatMap (s : State) (y n : Nat) :
    s.frameRows y n = (List.range' y n).flatMap (fun r => lineNumber r :: s.row r ++ [0x00]) := by
  induction n generalizing y with
  | zero => rfl
  | succ n ih => simp [State.frameRows, ih, List.range'_succ]

theorem State.length_frameRows (s : State) (y n : Nat) :
    (s.frameRows y n).length = n * (s.bpr + 2) := by
  induction n generalizing y with
  | zero => simp [State.frameRows]
  | succ n ih => simp [State.frameRows, ih]; ring

theorem State.length_clearFrame (s : State) : s.clearFrame.length = 2 := rfl

theorem State.length_fullFrame (s : State) :
    s.fullFrame.length = 2 + s.height.toNat * (s.bpr + 2) := by
  simp [State.fullFrame, State.length_frameRows]; ring

theorem State.length_lineFrame (s : State) (n : Nat) : (s.lineFrame n).length = s.bpr + 4 := by
  simp [State.lineFrame]

end Sys2Proof.Machine
end

