-- ==== Sys2Proof/Laws/Exec.lean ====
section
/-! SUPPORT. Everything an operation can do, said once: it completes without the Transport, changing the
framebuffer and the Printer at most, or it fails, or it is one Send of a frame. -/

namespace Sys2Proof.Machine

/-- How an operation that does not transmit completes: with framebuffer `m`, Printer `p` and result `r`,
where an error leaves both as they were (60_exceptions.md R192). -/
structure LocalEffect (i : Instr) (s : State) (m : Memory) (p : Printer) (r : Result) : Prop where
  fb_kept : WritesFramebuffer i = false → m = s.fb
  pr_kept : WritesPrinter i = false → p = s.pr
  error_kept : ∀ e, r = .error e → m = s.fb ∧ p = s.pr
  error_kind : ∀ e, r = .error e → e = .outOfBounds ∨ e = .illegalCommand
    ∨ (e = .truncated ∧ ∃ plen bytes, i = .texdec plen bytes)
  wf_kept : s.fb.wf = true → m.wf = true

theorem outOfPanel_iff {s : State} {x y : U16} : OutOfPanel s x y ↔ ¬ s.InBounds x y := by
  unfold OutOfPanel State.InBounds; omega

theorem cellOutOfPanel_iff {s : State} {x y : U16} : CellOutOfPanel s x y ↔ ¬ s.CellFits x y := by
  unfold CellOutOfPanel OutOfPanel State.CellFits State.InBounds; omega

theorem decodeTexture_error {bytes : List Byte} {e : ErrorKind} (h : decodeTexture bytes = .error e) :
    e = .truncated := by
  unfold decodeTexture at h
  split at h
  · split at h <;> cases h
    rfl
  · cases h; rfl

/-- An operation that does not transmit always completes, with a local effect. -/
theorem exec_local {i : Instr} (s : State) (h : Transmits i = false) :
    ∃ m p r, exec i s = .next (State.record { s with fb := m, pr := p } none r)
      ∧ LocalEffect i s m p r := by
  have failed : ∀ e, (e = .outOfBounds ∨ e = .illegalCommand) →
      LocalEffect i s s.fb s.pr (.error e) := fun e he =>
    ⟨fun _ => rfl, fun _ => rfl, fun _ _ => ⟨rfl, rfl⟩, fun e' h' => by cases h'; tauto, id⟩
  have value : ∀ v, LocalEffect i s s.fb s.pr (.ok v) := fun v =>
    ⟨fun _ => rfl, fun _ => rfl, fun _ h' => by (cases h'), fun _ h' => by (cases h'), id⟩
  have paints : ∀ m, WritesFramebuffer i = true → (s.fb.wf = true → m.wf = true) →
      LocalEffect i s m s.pr (.ok .nothing) := fun m hw hm =>
    ⟨fun h' => absurd (hw.symm.trans h') (by decide), fun _ => rfl, fun _ h' => by (cases h'),
      fun _ h' => by (cases h'), hm⟩
  cases i with
  | getpx x y =>
    simp only [exec, execGetpx]
    split
    · exact ⟨_, _, _, rfl, value _⟩
    · exact ⟨_, _, _, rfl, failed _ (.inl rfl)⟩
  | setpx x y c =>
    simp only [exec, execSetpx]
    split
    · exact ⟨_, _, _, rfl, paints _ rfl Memory.wf_setBit⟩
    · exact ⟨_, _, _, rfl, failed _ (.inl rfl)⟩
  | fbclr c => exact ⟨_, _, _, rfl, paints _ rfl Memory.wf_clearRows⟩
  | rowrd y =>
    simp only [exec, execRowrd]
    split
    · exact ⟨_, _, _, rfl, value _⟩
    · exact ⟨_, _, _, rfl, failed _ (.inl rfl)⟩
  | line x1 y1 x2 y2 c =>
    simp only [exec, execLine]
    split
    · exact ⟨_, _, _, rfl, paints _ rfl Memory.wf_drawPixels⟩
    · exact ⟨_, _, _, rfl, failed _ (.inl rfl)⟩
  | hline x y len c =>
    simp only [exec, execHline]
    split
    · exact ⟨_, _, _, rfl, paints _ rfl Memory.wf_hRun⟩
    · exact ⟨_, _, _, rfl, failed _ (.inl rfl)⟩
  | vline x y h c =>
    simp only [exec, execVline]
    split
    · exact ⟨_, _, _, rfl, paints _ rfl Memory.wf_vRun⟩
    · exact ⟨_, _, _, rfl, failed _ (.inl rfl)⟩
  | rect x1 y1 x2 y2 c =>
    simp only [exec, execRect]
    split
    · split
      · exact ⟨_, _, _, rfl, failed _ (.inl rfl)⟩
      · refine ⟨_, _, _, rfl, paints _ rfl fun hm => ?_⟩
        cases s.cfg.rectExtent
        · exact Memory.wf_vRun (Memory.wf_hRun (Memory.wf_vRun (Memory.wf_hRun hm)))
        · exact Memory.wf_vRun (Memory.wf_vRun (Memory.wf_hRun (Memory.wf_hRun hm)))
    · exact ⟨_, _, _, rfl, failed _ (.inl rfl)⟩
  | frect x1 y1 x2 y2 c =>
    simp only [exec, execFrect]
    split
    · refine ⟨_, _, _, rfl, paints _ rfl fun hm => ?_⟩
      cases s.cfg.rectExtent <;> exact Memory.wf_fillRows hm
    · exact ⟨_, _, _, rfl, failed _ (.inl rfl)⟩
  | texblt x y nrows rowlen payload =>
    simp only [exec, execTexblt]
    split
    · split
      · exact ⟨_, _, _, rfl, paints _ rfl Memory.wf_blitRows⟩
      · exact ⟨_, _, _, rfl, failed _ (.inl rfl)⟩
    · exact ⟨_, _, _, rfl, failed _ (.inr rfl)⟩
  | putch x y code c =>
    simp only [exec, execPutch]
    split
    · exact ⟨_, _, _, rfl, paints _ rfl Memory.wf_drawGlyph⟩
    · exact ⟨_, _, _, rfl, failed _ (.inl rfl)⟩
  | prset x y c =>
    exact ⟨_, _, _, rfl, fun _ => rfl, fun h' => by (cases h'), fun _ h' => by (cases h'),
      fun _ h' => by (cases h'), id⟩
  | prch code =>
    simp only [exec, execPrch]
    split
    · split
      · exact ⟨_, _, _, rfl, fun h' => by (cases h'), fun h' => by (cases h'), fun _ h' => by (cases h'),
          fun _ h' => by (cases h'), Memory.wf_drawGlyph⟩
      · exact ⟨_, _, _, rfl, failed _ (.inl rfl)⟩
    · exact ⟨_, _, _, rfl, failed _ (.inr rfl)⟩
  | dclr => cases h
  | rfsh => cases h
  | rfln n => cases h
  | texdec plen bytes =>
    simp only [exec, execTexdec]
    split
    · refine ⟨_, _, _, rfl, fun _ => rfl, fun _ => rfl, fun _ _ => ⟨rfl, rfl⟩, fun e he => ?_, id⟩
      exact .inr (.inr ⟨decodeTexture_error he, _, _, rfl⟩)
    · exact ⟨_, _, _, rfl, failed _ (.inr rfl)⟩

/-- A protocol operation fails its validation and changes nothing, or is one Send of a frame that starts
with a command byte, ends with 0x00 and has a length of 30_encoding.md R64. -/
theorem exec_protocol {i : Instr} (s : State) (h : Transmits i = true) :
    (∃ e, exec i s = .next (s.failed e) ∧ (e = .outOfBounds ∨ e = .illegalCommand))
      ∨ ∃ f, exec i s = s.send f
        ∧ (f.head? = some (s.commandByte s.cfg.writeCmd) ∨ f.head? = some (s.commandByte s.cfg.clearCmd))
        ∧ f.getLast? = some 0x00
        ∧ (f.length = 2 ∨ f.length = 2 + s.height.toNat * (s.bpr + 2) ∨ f.length = s.bpr + 4) := by
  cases i with
  | dclr => exact .inr ⟨_, rfl, .inr rfl, rfl, .inl rfl⟩
  | rfsh =>
    simp only [exec, execRfsh]
    split
    · exact .inr ⟨_, rfl, .inl rfl, by simp [State.fullFrame, List.getLast?_cons], .inr (.inl s.length_fullFrame)⟩
    · exact .inl ⟨_, rfl, .inr rfl⟩
  | rfln n =>
    simp only [exec, execRfln]
    split
    · split
      · exact .inr ⟨_, rfl, .inl rfl, by simp [State.lineFrame, List.getLast?_cons], .inr (.inr (s.length_lineFrame _))⟩
      · exact .inl ⟨_, rfl, .inr rfl⟩
    · exact .inl ⟨_, rfl, .inl rfl⟩
  | getpx | setpx | fbclr | rowrd | line | hline | vline | rect | frect | texblt | putch | prset | prch
  | texdec => cases h

/-- Every way an operation can answer a next state. -/
theorem exec_next {i : Instr} {s t : State} (h : exec i s = .next t) :
    (Transmits i = false ∧ ∃ m p r, t = State.record { s with fb := m, pr := p } none r
        ∧ LocalEffect i s m p r)
      ∨ (Transmits i = true ∧
        ((∃ e, t = s.failed e ∧ (e = .outOfBounds ∨ e = .illegalCommand))
          ∨ ∃ f, t = s.transmitted f
            ∧ (f.head? = some (s.commandByte s.cfg.writeCmd)
                ∨ f.head? = some (s.commandByte s.cfg.clearCmd))
            ∧ f.getLast? = some 0x00
            ∧ (f.length = 2 ∨ f.length = 2 + s.height.toNat * (s.bpr + 2) ∨ f.length = s.bpr + 4))) := by
  cases hi : Transmits i with
  | false =>
    obtain ⟨m, p, r, he, hl⟩ := exec_local s hi
    rw [he] at h; cases h
    exact .inl ⟨rfl, m, p, r, rfl, hl⟩
  | true =>
    rcases exec_protocol s hi with ⟨e, he, hk⟩ | ⟨f, he, hf⟩
    · rw [he] at h; cases h
      exact .inr ⟨rfl, .inl ⟨e, rfl, hk⟩⟩
    · rw [he] at h
      exact .inr ⟨rfl, .inr ⟨f, State.send_next h, hf⟩⟩

/-- Every way a step can answer a next state. -/
theorem step_next {s t : State} (h : step s = .next t) :
    ∃ (d : Descriptor) (rest : List Byte), s.port = d.toBytes ++ rest ∧
      ((∃ e, d.select = .error e ∧ t = State.failed { s with port := rest } .illegalCommand)
        ∨ ∃ k, d.select = .ok k ∧
          exec (d.operation (rest.take (d.payloadLength k)) k)
            { s with port := rest.drop (d.payloadLength k) } = .next t) := by
  rcases decode_cases s.port with ⟨_, hd⟩ | ⟨d, rest, hp, hd⟩
  · simp [step, hd] at h
  · refine ⟨d, rest, hp, ?_⟩
    unfold step at h
    rw [hd] at h
    unfold Descriptor.decode at h
    cases hs : d.select with
    | error e =>
      rw [hs] at h
      cases h
      exact .inl ⟨e, rfl, rfl⟩
    | ok k =>
      rw [hs] at h
      exact .inr ⟨k, rfl, h⟩

end Sys2Proof.Machine
end

