-- ==== Sys2Proof/Laws/Lines.lean ====
section
/-! SUPPORT. The Bresenham loop: its length and the range of its error term (41_raster_runs.md R105). -/

namespace Sys2Proof.Machine

theorem absDiff_comm (a b : Nat) : absDiff a b = absDiff b a := by unfold absDiff; omega

@[simp] theorem length_bresenham (dx dy ystep : Int) (n x : Nat) (y err : Int) :
    (bresenham dx dy ystep n x y err).length = n := by
  induction n generalizing x y err with
  | zero => rfl
  | succ n ih => simp only [bresenham]; split <;> simp [ih]

/-- The loop unrolled once per pixel. -/
theorem bresenham_getElem_zero (dx dy ystep : Int) (n x : Nat) (y err : Int) :
    (bresenham dx dy ystep (n + 1) x y err)[0]? = some (x, y.toNat) := by
  simp [bresenham]

/-- The error term stays in `0 ≤ err < dx` between iterations (41_raster_runs.md R105), and pixel `k` is
`j` minor steps away, where `j` is the number that keeps `err - k dy + j dx` in that range. -/
theorem bresenham_getElem (dx dy ystep : Int) (n x : Nat) (y err : Int) (k : Nat) (j : Int)
    (hdy : 0 ≤ dy) (hle : dy ≤ dx) (herr : 0 ≤ err) (hlt : err < dx) (hk : k < n)
    (h0 : 0 ≤ err - k * dy + j * dx) (h1 : err - k * dy + j * dx < dx) :
    (bresenham dx dy ystep n x y err)[k]? = some (x + k, (y + j * ystep).toNat) := by
  induction n generalizing x y err k j with
  | zero => omega
  | succ n ih =>
    have hdx : 0 < dx := by omega
    cases k with
    | zero =>
      have hj : j = 0 := by
        have a1 : -1 < j := by
          by_contra hn
          have : j * dx ≤ -1 * dx := Int.mul_le_mul_of_nonneg_right (by omega) (by omega)
          push_cast at h0; omega
        have a2 : j < 1 := by
          by_contra hn
          have : 1 * dx ≤ j * dx := Int.mul_le_mul_of_nonneg_right (by omega) (by omega)
          push_cast at h1; omega
        omega
      simp [bresenham, hj]
    | succ k =>
      simp only [bresenham, List.getElem?_cons_succ]
      push_cast at h0 h1
      have e1 : ((k : Int) + 1) * dy = k * dy + dy := by ring
      rw [e1] at h0 h1
      split
      · have e2 : (j - 1) * dx = j * dx - dx := by ring
        rw [ih (x + 1) (y + ystep) (err - dy + dx) k (j - 1) (by omega) (by omega) (by omega)
          (by rw [e2]; omega) (by rw [e2]; omega)]
        congr 2
        · omega
        · ring_nf
      · rw [ih (x + 1) y (err - dy) k j (by omega) (by omega) (by omega) (by omega) (by omega)]
        congr 2
        omega

end Sys2Proof.Machine
end

