-- ==== Sys2Proof/Laws/PerInstr.lean ====
section
/-! SUPPORT. One fact of every operation as syntax: the length of its encoding. -/

namespace Sys2Proof.Laws.EncodedLength

/-- An operation is encoded in its ten descriptor bytes and its payload (30_encoding.md R72, R75). -/
def Statement (i : Instr) : Prop := (encode i).length = 10 + i.payload.length

theorem getpx (x y : U16) : Statement (.getpx x y) := rfl
theorem setpx (x y : U16) (c : Bool) : Statement (.setpx x y c) := rfl
theorem fbclr (c : Bool) : Statement (.fbclr c) := rfl
theorem rowrd (y : U16) : Statement (.rowrd y) := rfl
theorem line (x1 y1 x2 y2 : U16) (c : Bool) : Statement (.line x1 y1 x2 y2 c) := rfl
theorem hline (x y len : U16) (c : Bool) : Statement (.hline x y len c) := rfl
theorem vline (x y h : U16) (c : Bool) : Statement (.vline x y h c) := rfl
theorem rect (x1 y1 x2 y2 : U16) (c : Bool) : Statement (.rect x1 y1 x2 y2 c) := rfl
theorem frect (x1 y1 x2 y2 : U16) (c : Bool) : Statement (.frect x1 y1 x2 y2 c) := rfl
theorem texblt (x y nrows rowlen : U16) (payload : List Byte) :
    Statement (.texblt x y nrows rowlen payload) := List.length_append
theorem putch (x y : U16) (code : Byte) (c : Bool) : Statement (.putch x y code c) := rfl
theorem prset (x y : U16) (c : Bool) : Statement (.prset x y c) := rfl
theorem prch (code : Byte) : Statement (.prch code) := rfl
theorem dclr : Statement .dclr := rfl
theorem rfsh : Statement .rfsh := rfl
theorem rfln (n : U16) : Statement (.rfln n) := rfl
theorem texdec (plen : BitVec 32) (bytes : List Byte) : Statement (.texdec plen bytes) :=
  List.length_append

end Sys2Proof.Laws.EncodedLength
end

