-- ==== Sys2Proof/Tests/Slice0.lean ====
section
/-! SUPPORT. Tests on single operations, expected values from 95_test_vectors.md (F, H, V, L, R, G, T, P,
W, A and programs 1 to 4) and 30_encoding.md, and a witness for the hypotheses of every statement. -/

namespace Sys2Proof.Tests

open Sys2Proof.Machine

/-! ## Helpers -/

/-- The two glyphs of 95_test_vectors.md section 6. -/
def letters : Font :=
  (Font.blank.set 0x41 #v[0x7C, 0x12, 0x11, 0x12, 0x7C]).set 0x01 #v[0x01, 0x80, 0xFF, 0x00, 0xAA]

def lettered : Config := { Config.default with font := letters }

def inclusive : Config := { Config.default with rectExtent := .inclusive }

/-- A panel right after reset. -/
def panel (w h : U16) : State := State.fresh Config.default w h

/-- A panel with one row's bytes, from byte 0 on, put in by hand. -/
def withRow (s : State) (y : Nat) (bytes : List Byte) : State :=
  { s with fb := (bytes.zipIdx).foldl (fun m v => m.setByte y v.2 v.1) s.fb }

def answers (s : State) (rs : List Reply) : State := { s with replies := rs }

/-- The answer's bytes and the rows of the panel. -/
def shown : StepOutcome → Option (List Byte × List (List Byte))
  | .next t => some ((t.trace.head?.map (fun c => c.result.bytes)).getD [],
      (List.range t.height.toNat).map (fun y => t.row y))
  | .fault _ => none
  | .refused _ => none

/-- The answer's bytes, the frame handed over and the VCOM flag. -/
def handed : StepOutcome → Option (List Byte × Option (List Byte) × Bool)
  | .next t => some ((t.trace.head?.map (fun c => c.result.bytes)).getD [],
      t.frames.head?.map Transmission.bytes, t.vcom)
  | .fault _ => none
  | .refused _ => none

/-- The answer's bytes and the Printer. -/
def printed : StepOutcome → Option (List Byte × Printer)
  | .next t => some ((t.trace.head?.map (fun c => c.result.bytes)).getD [], t.pr)
  | .fault _ => none
  | .refused _ => none

/-! ## WellFormed -/

/-- 30_encoding.md R75: two rows of two bytes are four bytes, not three. -/
theorem test_wellFormed_refuses_short_texblt :
    (Instr.texblt 8 9 2 2 [0x0F, 0xF0, 0x55]).wellFormed = false := by decide

theorem test_wellFormed_refuses_long_texdec :
    (Instr.texdec 3 [0x00, 0x00, 0x00, 0x00]).wellFormed = false := by decide

theorem test_wellFormed_accepts_texblt :
    (Instr.texblt 8 9 2 2 [0x0F, 0xF0, 0x55, 0xAA]).wellFormed = true := by decide

/-! ## Decoding, words written out from 30_encoding.md R72 to R75 and the programs of 95_test_vectors.md -/

theorem test_decode_getpx :
    decode [0x01, 0x00, 0x09, 0x00, 0x03, 0x00, 0x00, 0x00, 0x00, 0x00] = .instr (.getpx 9 3) [] := by
  decide

/-- Colour set, and both bytes of both coordinates in use. -/
theorem test_decode_setpx :
    decode [0x02, 0x01, 0x34, 0x12, 0x78, 0x56, 0x00, 0x00, 0x00, 0x00]
      = .instr (.setpx 0x1234 0x5678 true) [] := by decide

theorem test_decode_fbclr :
    decode [0x03, 0x01, 0x00, 0x00, 0x00, 0x00, 0x00, 0x00, 0x00, 0x00] = .instr (.fbclr true) [] := by
  decide

theorem test_decode_rowrd :
    decode [0x04, 0x00, 0x00, 0x00, 0x03, 0x00, 0x00, 0x00, 0x00, 0x00] = .instr (.rowrd 3) [] := by
  decide

theorem test_decode_line :
    decode [0x10, 0x00, 0x0E, 0x00, 0x00, 0x00, 0x0F, 0x00, 0x07, 0x00]
      = .instr (.line 14 0 15 7 false) [] := by decide

theorem test_decode_hline :
    decode [0x11, 0x00, 0x03, 0x00, 0x03, 0x00, 0x05, 0x00, 0x00, 0x00]
      = .instr (.hline 3 3 5 false) [] := by decide

theorem test_decode_vline :
    decode [0x12, 0x00, 0x0C, 0x00, 0x00, 0x00, 0x08, 0x00, 0x00, 0x00]
      = .instr (.vline 12 0 8 false) [] := by decide

theorem test_decode_rect :
    decode [0x13, 0x00, 0x01, 0x00, 0x01, 0x00, 0x0A, 0x00, 0x06, 0x00]
      = .instr (.rect 1 1 10 6 false) [] := by decide

theorem test_decode_frect :
    decode [0x14, 0x00, 0x00, 0x00, 0x00, 0x00, 0x00, 0x00, 0x09, 0x00]
      = .instr (.frect 0 0 0 9 false) [] := by decide

/-- The payload is taken and the byte behind it left. -/
theorem test_decode_texblt :
    decode [0x15, 0x00, 0x08, 0x00, 0x09, 0x00, 0x02, 0x00, 0x02, 0x00, 0x0F, 0xF0, 0x55, 0xAA, 0x20]
      = .instr (.texblt 8 9 2 2 [0x0F, 0xF0, 0x55, 0xAA]) [0x20] := by decide

theorem test_decode_putch :
    decode [0x16, 0x01, 0x03, 0x00, 0x02, 0x00, 0x41, 0x00, 0x00, 0x00]
      = .instr (.putch 3 2 0x41 true) [] := by decide

theorem test_decode_prset :
    decode [0x18, 0x00, 0x01, 0x00, 0x01, 0x00, 0x00, 0x00, 0x00, 0x00]
      = .instr (.prset 1 1 false) [] := by decide

theorem test_decode_prch :
    decode [0x19, 0x00, 0x00, 0x00, 0x00, 0x00, 0x41, 0x00, 0x00, 0x00] = .instr (.prch 0x41) [] := by
  decide

theorem test_decode_dclr :
    decode [0x20, 0x00, 0x00, 0x00, 0x00, 0x00, 0x00, 0x00, 0x00, 0x00] = .instr .dclr [] := by decide

theorem test_decode_rfsh :
    decode [0x21, 0x00, 0x00, 0x00, 0x00, 0x00, 0x00, 0x00, 0x00, 0x00] = .instr .rfsh [] := by decide

theorem test_decode_rfln :
    decode [0x22, 0x00, 0x00, 0x00, 0x03, 0x00, 0x00, 0x00, 0x00, 0x00] = .instr (.rfln 3) [] := by decide

theorem test_decode_texdec :
    decode [0x30, 0x00, 0x00, 0x00, 0x00, 0x00, 0x08, 0x00, 0x00, 0x00,
        0x10, 0x00, 0x02, 0x00, 0x0F, 0xF0, 0x55, 0xAA]
      = .instr (.texdec 8 [0x10, 0x00, 0x02, 0x00, 0x0F, 0xF0, 0x55, 0xAA]) [] := by decide

/-- The high half of TEXDEC's payload length stands in field D (30_encoding.md R73). -/
theorem test_plen_high_half :
    Descriptor.plen ⟨0x30, false, 0, 0, 0, 0x5678, 0x1234⟩ = 0x12345678 := by decide

/-! 30_encoding.md R77: (a) an opcode of no operation, the gap 0x17 among them; (b) a reserved bit; (c) a
field the operation does not use, the colour and the upper byte of a glyph code among them. -/

theorem test_illegal_opcode :
    decode [0x17, 0x00, 0x00, 0x00, 0x00, 0x00, 0x00, 0x00, 0x00, 0x00, 0x20]
      = .illegal .unknownOpcode [0x20] := by decide

theorem test_illegal_reserved :
    decode [0x02, 0x02, 0x00, 0x00, 0x00, 0x00, 0x00, 0x00, 0x00, 0x00]
      = .illegal .reservedNotZero [] := by decide

theorem test_illegal_colour :
    decode [0x20, 0x01, 0x00, 0x00, 0x00, 0x00, 0x00, 0x00, 0x00, 0x00]
      = .illegal .unusedNotZero [] := by decide

theorem test_illegal_code_high_byte :
    decode [0x19, 0x00, 0x00, 0x00, 0x00, 0x00, 0x41, 0x01, 0x00, 0x00]
      = .illegal .unusedNotZero [] := by decide

theorem test_illegal_field :
    decode [0x11, 0x00, 0x03, 0x00, 0x03, 0x00, 0x05, 0x00, 0x01, 0x00]
      = .illegal .unusedNotZero [] := by decide

/-- A word of the opcode table, and one whose row announces a payload of zeros. -/
theorem test_table_words :
    decodeTableWord 80 0x00000000000500030011 = some (.hline 3 5 0 false)
    ∧ decodeTableWord 80 0x00020001000000000015 = some (.texblt 0 0 1 2 [0x00, 0x00])
    ∧ decodeTableWord 80 0x00000000000000000017 = none := by decide

/-! ## Masks -/

/-- 20_memory.md R41, 41_raster_runs.md R106. -/
theorem test_masks :
    (List.range 8).map maskSet = [0x01, 0x02, 0x04, 0x08, 0x10, 0x20, 0x40, 0x80]
    ∧ (List.range 8).map maskClear = [0xFE, 0xFD, 0xFB, 0xF7, 0xEF, 0xDF, 0xBF, 0x7F]
    ∧ (List.range 8).map capMask = [0xFF, 0xFE, 0xFC, 0xF8, 0xF0, 0xE0, 0xC0, 0x80]
    ∧ (List.range 8).map shiftMask = [0x00, 0x01, 0x03, 0x07, 0x0F, 0x1F, 0x3F, 0x7F] := by decide

/-! ## Framebuffer -/

/-- F6: the pixel cleared reads 0. -/
theorem test_getpx : shown (exec (.getpx 0 0) (withRow (panel 16 2) 0 [0xFE]))
    = some ([0x00, 0x00], [[0xFE, 0xFF], [0xFF, 0xFF]]) := by decide

/-- F13. -/
theorem test_getpx_out_of_bounds : shown (exec (.getpx 65535 65535) (panel 16 2))
    = some ([0x02], [[0xFF, 0xFF], [0xFF, 0xFF]]) := by decide

/-- F8. -/
theorem test_setpx : shown (exec (.setpx 9 0 false) (panel 16 2))
    = some ([0x00], [[0xFF, 0xFD], [0xFF, 0xFF]]) := by decide

/-- F12. -/
theorem test_setpx_out_of_bounds : shown (exec (.setpx 0 2 false) (panel 16 2))
    = some ([0x02], [[0xFF, 0xFF], [0xFF, 0xFF]]) := by decide

/-- F14. -/
theorem test_fbclr : shown (exec (.fbclr false) (panel 16 2))
    = some ([0x00], [[0x00, 0x00], [0x00, 0x00]]) := by decide

/-- F16. -/
theorem test_rowrd : shown (exec (.rowrd 0) (withRow (panel 16 2) 0 [0xFE]))
    = some ([0x00, 0xFE, 0xFF], [[0xFE, 0xFF], [0xFF, 0xFF]]) := by decide

/-! ## Lines and runs -/

/-- L1 and L2: both orders of the endpoints. -/
theorem test_line : shown (exec (.line 7 3 0 0 false) (panel 8 8))
    = some ([0x00], [[0xFC], [0xF3], [0xCF], [0x3F], [0xFF], [0xFF], [0xFF], [0xFF]]) := by decide

/-- L3: steep. -/
theorem test_line_steep : shown (exec (.line 0 0 3 7 false) (panel 8 8))
    = some ([0x00], [[0xFE], [0xFE], [0xFD], [0xFD], [0xFB], [0xFB], [0xF7], [0xF7]]) := by decide

/-- H19: lead and trail. -/
theorem test_hline : shown (exec (.hline 4 0 8 true) (withRow (panel 32 1) 0 [0xA5, 0x5A, 0xFF, 0x00]))
    = some ([0x00], [[0xF5, 0x5F, 0xFF, 0x00]]) := by decide

/-- H18: no wrap of the sum. -/
theorem test_hline_no_wrap : shown (exec (.hline 8 0 65535 false) (panel 32 1))
    = some ([0x02], [[0xFF, 0xFF, 0xFF, 0xFF]]) := by decide

/-- V1. -/
theorem test_vline : shown (exec (.vline 9 1 3 false) (panel 16 4))
    = some ([0x00], [[0xFF, 0xFF], [0xFF, 0xFD], [0xFF, 0xFD], [0xFF, 0xFD]]) := by decide

/-- V6: against HEIGHT, not WIDTH. -/
theorem test_vline_height : shown (exec (.vline 10 0 5 false) (panel 16 4))
    = some ([0x02], [[0xFF, 0xFF], [0xFF, 0xFF], [0xFF, 0xFF], [0xFF, 0xFF]]) := by decide

/-! ## Shapes -/

/-- R3. -/
theorem test_rect_halfOpen : shown (exec (.rect 10 1 1 6 false) (panel 16 8))
    = some ([0x00], [[0xFF, 0xFF], [0x01, 0xFC], [0xFD, 0xFD], [0xFD, 0xFD], [0xFD, 0xFD], [0x01, 0xFC],
        [0xFF, 0xFF], [0xFF, 0xFF]]) := by decide

/-- R4. -/
theorem test_rect_inclusive : shown (exec (.rect 1 1 10 6 false) (State.fresh inclusive 16 8))
    = some ([0x00], [[0xFF, 0xFF], [0x03, 0xFC], [0xFD, 0xFB], [0xFD, 0xFB], [0xFD, 0xFB], [0xFD, 0xFB],
        [0x03, 0xFC], [0xFF, 0xFF]]) := by decide

/-- G2. -/
theorem test_frect_halfOpen : shown (exec (.frect 13 5 2 1 false) (panel 16 8))
    = some ([0x00], [[0xFF, 0xFF], [0x03, 0xE0], [0x03, 0xE0], [0x03, 0xE0], [0x03, 0xE0], [0xFF, 0xFF],
        [0xFF, 0xFF], [0xFF, 0xFF]]) := by decide

/-- G5: one pixel. -/
theorem test_frect_inclusive : shown (exec (.frect 5 5 5 5 false) (State.fresh inclusive 16 8))
    = some ([0x00], [[0xFF, 0xFF], [0xFF, 0xFF], [0xFF, 0xFF], [0xFF, 0xFF], [0xFF, 0xFF], [0xDF, 0xFF],
        [0xFF, 0xFF], [0xFF, 0xFF]]) := by decide

/-- T2: aligned down, and the third row clipped. -/
theorem test_texblt : shown (exec (.texblt 13 2 3 2 [0x11, 0x22, 0x33, 0x44, 0x55, 0x66]) (panel 24 4))
    = some ([0x00], [[0xFF, 0xFF, 0xFF], [0xFF, 0xFF, 0xFF], [0xFF, 0x11, 0x22], [0xFF, 0x33, 0x44]]) := by
  decide

/-- T3: bytes past the row clipped. -/
theorem test_texblt_clips_bytes : shown (exec (.texblt 16 3 1 3 [0xA5, 0x5A, 0x00]) (panel 24 4))
    = some ([0x00], [[0xFF, 0xFF, 0xFF], [0xFF, 0xFF, 0xFF], [0xFF, 0xFF, 0xFF], [0xFF, 0xFF, 0xA5]]) := by
  decide

/-! ## Glyphs -/

/-- P1. -/
theorem test_putch : shown (exec (.putch 0 0 0x41 false) (State.fresh lettered 16 8))
    = some ([0x00], [[0xFB, 0xFF], [0xF5, 0xFF], [0xEE, 0xFF], [0xEE, 0xFF], [0xE0, 0xFF], [0xEE, 0xFF],
        [0xEE, 0xFF], [0xFF, 0xFF]]) := by decide

/-- P3: the cell does not fit. -/
theorem test_putch_out_of_bounds : printed (exec (.putch 12 0 0x41 false) (State.fresh lettered 16 8))
    = some ([0x02], ⟨false, 0, 0, false⟩) := by decide

/-- P9: any values. -/
theorem test_prset : printed (exec (.prset 40000 9 true) (panel 16 8))
    = some ([0x00], ⟨true, 40000, 9, true⟩) := by decide

/-- P7, the first character: the cursor advances by 6. -/
theorem test_prch : printed (exec (.prch 0x41) { State.fresh lettered 16 8 with pr := ⟨true, 0, 0, false⟩ })
    = some ([0x00], ⟨true, 6, 0, false⟩) := by decide

/-- P6: no PRSET yet. -/
theorem test_prch_before_prset : printed (exec (.prch 0x41) (State.fresh lettered 16 8))
    = some ([0x05], ⟨false, 0, 0, false⟩) := by decide

/-! ## The protocol -/

/-- W2. -/
theorem test_dclr : handed (exec .dclr (answers { panel 16 2 with vcom := true } [.ok]))
    = some ([0x00], some [0x06, 0x00], false) := by decide

/-- W5. -/
theorem test_rfsh : handed (exec .rfsh (answers (withRow (panel 16 2) 0 [0xFE]) [.ok]))
    = some ([0x00], some [0x01, 0x01, 0xFE, 0xFF, 0x00, 0x02, 0xFF, 0xFF, 0x00, 0x00], true) := by decide

/-- Program 2, operation 3: the Transport answers `Err`, and the flag inverts all the same. -/
theorem test_rfsh_error :
    handed (exec .rfsh (answers { withRow (panel 8 3) 2 [0x7F] with vcom := true } [.err]))
      = some ([0x04], some [0x03, 0x01, 0xFF, 0x00, 0x02, 0xFF, 0x00, 0x03, 0x7F, 0x00, 0x00], false) := by
  decide

/-- W3. -/
theorem test_rfln : handed (exec (.rfln 1) (answers { panel 16 2 with vcom := true } [.ok]))
    = some ([0x00], some [0x03, 0x02, 0xFF, 0xFF, 0x00, 0x00], false) := by decide

/-- W9, W10, W11: line number 255, a line number above it, a row that does not exist. -/
theorem test_rfln_limits :
    handed (exec (.rfln 254) (answers (panel 8 300) [.ok])) = some ([0x00], some [0x01, 0xFF, 0xFF, 0x00, 0x00], true)
    ∧ handed (exec (.rfln 255) (answers (panel 8 300) [.ok])) = some ([0x05], none, false)
    ∧ handed (exec (.rfln 300) (answers (panel 8 300) [.ok])) = some ([0x02], none, false) := by decide

/-! ## The AssetDecoder -/

/-- A1, with the response of section 8. -/
theorem test_texdec :
    handed (exec (.texdec 8 [0x10, 0x00, 0x02, 0x00, 0xAA, 0xBB, 0xCC, 0xDD]) (panel 16 2))
      = some ([0x00, 0x10, 0x00, 0x02, 0x00, 0xAA, 0xBB, 0xCC, 0xDD], none, false) := by decide

/-- A2 (a byte too many), A4 and A5 (too few). -/
theorem test_texdec_lengths :
    decodeTexture [0x09, 0x00, 0x01, 0x00, 0x12, 0x34, 0x99] = .ok (.texture 9 1 [[0x12, 0x34]])
    ∧ decodeTexture [0x01, 0x00, 0x01] = .error .truncated
    ∧ decodeTexture [0x10, 0x00, 0x02, 0x00, 0x01, 0x02, 0x03] = .error .truncated := by decide

/-! ## Reset and stepping -/

/-- F1, F2, F3. -/
theorem test_construct :
    State.construct Config.default 16 2 = .ok (panel 16 2)
    ∧ State.construct Config.default 12 2 = .error .invalidDimensions
    ∧ State.construct Config.default 0 5 = .ok (panel 0 5) := ⟨rfl, rfl, rfl⟩

/-- Program 1, operation 1, presented on the command port. -/
theorem test_step_setpx :
    shown (step { panel 16 2 with port := [0x02, 0x00, 0x00, 0x00, 0x00, 0x00, 0x00, 0x00, 0x00, 0x00] })
      = some ([0x00], [[0xFE, 0xFF], [0xFF, 0xFF]]) := by decide

/-- The host's way of presenting a word runs it as the first operation after reset. -/
theorem test_withFetchWord :
    step (State.reset.withFetchWord 80 0x00000000000000000102)
      = exec (.setpx 0 0 true) State.reset := rfl

/-! ## Witnesses: states and operands that meet the hypotheses of each statement, at the ends of the
ranges where it has several clauses -/

/-- A panel with one failed operation behind it and an answer of the Transport ready. -/
def busy : State :=
  { panel 16 2 with trace := [{ sent := none, result := .error .outOfBounds }], replies := [.ok] }

/-- A Printer at (19, 0) of a panel 24 wide: the last cell that fits. -/
def typing : State := { State.fresh lettered 24 10 with pr := ⟨true, 19, 0, false⟩ }

theorem witness_ConstructLeavesResetState :
    (8#16).toNat % 8 = 0 ∧ (65528#16).toNat % 8 = 0 ∧ (12#16).toNat % 8 ≠ 0
    ∧ (7#16).toNat < (8#16).toNat ∧ (0#16).toNat < (1#16).toNat := by decide

theorem witness_ResetMeetsInvariant :
    Config.default.legal = true ∧ State.construct Config.default 0 65535 = .ok (panel 0 65535) :=
  ⟨by decide, rfl⟩

theorem witness_StepKeepsInvariant :
    State.Inv { panel 16 2 with port := encode (.setpx 9 0 false) }
    ∧ ∃ t, step { panel 16 2 with port := encode (.setpx 9 0 false) } = .next t := ⟨by decide, _, rfl⟩

theorem witness_EveryOperationEndsInOneResult :
    Transmits (.getpx 0 0) = false ∧ (panel 16 2).TransportAnswers
    ∧ (answers (panel 16 2) [.err]).TransportAnswers := by decide

theorem witness_OnlyASilentTransportStops :
    exec .dclr (answers (panel 8 255) [.silent]) = .fault .transportHang
    ∧ (answers (panel 8 255) [.silent]).replies.head? = some .silent
    ∧ (panel 8 255).height.toNat ≤ 255 ∧ (254#16).toNat < (panel 8 255).height.toNat
    ∧ (254#16).toNat < 255 := ⟨rfl, rfl, by decide, by decide, by decide⟩

/-- One error that changes nothing, and a TransportError. -/
theorem witness_ErrorsArePrecise :
    (∃ t, exec (.getpx 16 0) (panel 16 2) = .next t
      ∧ t.trace.head? = some { sent := none, result := .error .outOfBounds })
    ∧ ∃ t f, exec .dclr (answers (panel 16 2) [.err]) = .next t
      ∧ t.trace.head? = some { sent := f, result := .error .transportError } :=
  ⟨⟨_, rfl, rfl⟩, _, _, rfl, rfl⟩

/-- One operation for each kind: a pixel just outside, TEXDEC of nothing, PRCH before PRSET, RFLN of the
first line whose number does not fit, a frame answered `Err`. -/
theorem witness_ErrorKindsBelongToTheirOperations :
    (∃ t, exec (.getpx 16 0) (panel 16 2) = .next t
      ∧ t.trace.head? = some { sent := none, result := .error .outOfBounds })
    ∧ (∃ t, exec (.texdec 0 []) (panel 16 2) = .next t
      ∧ t.trace.head? = some { sent := none, result := .error .truncated })
    ∧ (∃ t, exec (.prch 0x41) (panel 16 8) = .next t
      ∧ t.trace.head? = some { sent := none, result := .error .illegalCommand })
    ∧ (∃ t, exec (.rfln 255) (panel 8 256) = .next t
      ∧ t.trace.head? = some { sent := none, result := .error .illegalCommand })
    ∧ ∃ t f, exec .rfsh (answers (panel 16 2) [.err]) = .next t
      ∧ t.trace.head? = some { sent := f, result := .error .transportError } :=
  ⟨⟨_, rfl, rfl⟩, ⟨_, rfl, rfl⟩, ⟨_, rfl, rfl⟩, ⟨_, rfl, rfl⟩, _, _, rfl, rfl⟩

theorem witness_OperationsWriteOnlyWhatTheyMay :
    WritesFramebuffer (.rowrd 0) = false ∧ WritesPrinter (.rowrd 0) = false
    ∧ Transmits (.rowrd 0) = false ∧ ∃ t, exec (.rowrd 0) (panel 16 2) = .next t :=
  ⟨rfl, rfl, rfl, _, rfl⟩

theorem witness_OperationsDoNotReadTheTrace : ∃ t, exec .rfsh busy = .next t := ⟨_, rfl⟩

theorem witness_OnlyProtocolOperationsSeeVcom :
    Transmits (.fbclr false) = false ∧ ∃ t, exec (.fbclr false) busy = .next t := ⟨rfl, _, rfl⟩

theorem witness_DecodeOfEncodeIsTheOperation :
    (Instr.texblt 8 9 2 2 [0x0F, 0xF0, 0x55, 0xAA]).WellFormed ∧ Instr.dclr.WellFormed := by decide

theorem witness_DecodedBytesAreTheEncoding :
    decode (encode (.texdec 1 [0x07]) ++ [0x20]) = .instr (.texdec 1 [0x07]) [0x20] := by decide

/-- A descriptor that matches a row, and one that matches none. -/
theorem witness_DecoderFollowsMatchAndMask :
    (∃ row ∈ opcodeTable, row.opcode = .putch
      ∧ Descriptor.word ⟨0x16, true, 0, 3, 2, 0x41, 0⟩ &&& row.mask = row.pattern)
    ∧ ∀ row ∈ opcodeTable, Descriptor.word ⟨0x16, true, 0, 3, 2, 0x141, 0⟩ &&& row.mask ≠ row.pattern := by
  decide

/-- One descriptor for each ground. -/
theorem witness_IllegalDescriptorChangesNothing :
    ({ panel 16 2 with port := Descriptor.toBytes ⟨0x17, false, 0, 0, 0, 0, 0⟩ ++ [0x20] }).port
        = Descriptor.toBytes ⟨0x17, false, 0, 0, 0, 0, 0⟩ ++ [0x20]
    ∧ opcodeOf 0x17 = none ∧ (127#7) ≠ 0
    ∧ ∃ k, opcodeOf 0x20 = some k
      ∧ Descriptor.unusedZero ⟨0x20, true, 0, 0, 0, 0, 0⟩ k.fields = false :=
  ⟨rfl, by decide, by decide, .dclr, by decide, by decide⟩

theorem witness_StepRunsTheDecodedOperation :
    decode ({ panel 16 2 with port := encode (.rfln 1) ++ [0x01] }).port = .instr (.rfln 1) [0x01] := by
  decide

theorem witness_StepWaitsForADescriptor :
    (panel 16 2).port.length < 10
    ∧ ({ panel 16 2 with port := [1, 0, 0, 0, 0, 0, 0, 0, 0] }).port.length < 10 := by decide

/-- A legal command with another behind it, and an illegal one. -/
theorem witness_StepTakesOneCommandAndAnswersOnce :
    (∃ t, step { panel 16 2 with port := encode (.fbclr true) ++ encode .dclr } = .next t)
    ∧ ∃ t, step { panel 16 2 with port := Descriptor.toBytes ⟨0x17, false, 0, 0, 0, 0, 0⟩ } = .next t :=
  ⟨⟨_, rfl⟩, _, rfl⟩

theorem witness_ProgramRunsInOrderIssued :
    (∀ i ∈ [Instr.setpx 0 0 false, Instr.rfsh], i.WellFormed)
    ∧ ({ panel 16 2 with port := [Instr.setpx 0 0 false, Instr.rfsh].flatMap encode }).port
        = [Instr.setpx 0 0 false, Instr.rfsh].flatMap encode := ⟨by decide, rfl⟩

theorem witness_GetpxReadsThePixel :
    (panel 16 2).InBounds 15 1 ∧ ¬ (panel 16 2).InBounds 16 1 ∧ ¬ (panel 16 2).InBounds 15 2 := by decide

theorem witness_SetpxWritesOnePixel :
    (panel 16 2).fb.wf = true ∧ (panel 16 2).InBounds 15 1 ∧ ¬ (panel 16 2).InBounds 16 0
    ∧ (panel 16 2).fb.pixel (15#16).toNat (1#16).toNat = true := by decide

theorem witness_FbclrFillsTheFramebuffer :
    (withRow (panel 16 2) 1 [0x00]).fb.wf = true
    ∧ (withRow (panel 16 2) 1 [0x00]).fb.within (panel 16 2).height.toNat (panel 16 2).bpr = true := by
  decide

theorem witness_RowrdReturnsTheRow :
    (1#16).toNat < (panel 16 2).height.toNat ∧ ¬ (2#16).toNat < (panel 16 2).height.toNat := by decide

theorem witness_LinePaintsBresenhamPixels :
    (panel 8 8).fb.wf = true ∧ ((panel 8 8).InBounds 0 0 ∧ (panel 8 8).InBounds 7 7)
    ∧ ¬ ((panel 8 8).InBounds 0 0 ∧ (panel 8 8).InBounds 8 0) := by decide

/-- Flat, diagonal and a single point, and a line to turn over the diagonal. -/
theorem witness_LinePixelsAreTheRoundedLine :
    (0 ≤ 7 ∧ absDiff 3 0 ≤ 7 - 0) ∧ (0 ≤ 7 ∧ absDiff 0 7 ≤ 7 - 0) ∧ (2 ≤ 2 ∧ absDiff 2 2 ≤ 2 - 2)
    ∧ absDiff 3 0 < absDiff 7 0 := by decide

/-- Consecutive pixels of a flat, a steep and a diagonal line, and members of the two straight ones. -/
theorem witness_LineFootprintProperties :
    ((linePixels 0 0 7 3)[6]? = some (6, 3) ∧ (linePixels 0 0 7 3)[7]? = some (7, 3))
    ∧ ((linePixels 0 0 3 7)[1]? = some (0, 1) ∧ (linePixels 0 0 3 7)[2]? = some (1, 2)
      ∧ absDiff 7 0 > absDiff 3 0)
    ∧ ((linePixels 1 6 6 1)[0]? = some (1, 6) ∧ (linePixels 1 6 6 1)[1]? = some (2, 5)
      ∧ absDiff 1 6 = absDiff 6 1)
    ∧ (0, 5) ∈ linePixels 7 5 0 5 ∧ (4, 7) ∈ linePixels 4 0 4 7 := by decide

/-- A run to the end of the row, an empty run, one too long, one that starts outside. -/
theorem witness_HlinePaintsTheRun :
    (panel 32 1).fb.wf = true
    ∧ ((panel 32 1).InBounds 31 0 ∧ (31#16).toNat + (1#16).toNat ≤ (panel 32 1).width.toNat)
    ∧ ((panel 32 1).InBounds 5 0 ∧ (5#16).toNat + (0#16).toNat ≤ (panel 32 1).width.toNat)
    ∧ ¬ ((panel 32 1).InBounds 30 0 ∧ (30#16).toNat + (3#16).toNat ≤ (panel 32 1).width.toNat)
    ∧ ¬ ((panel 32 1).InBounds 32 0 ∧ (32#16).toNat + (0#16).toNat ≤ (panel 32 1).width.toNat) := by decide

theorem witness_VlinePaintsTheColumn :
    (panel 8 12).fb.wf = true
    ∧ ((panel 8 12).InBounds 2 0 ∧ (0#16).toNat + (12#16).toNat ≤ (panel 8 12).height.toNat)
    ∧ ¬ ((panel 8 12).InBounds 0 11 ∧ (11#16).toNat + (2#16).toNat ≤ (panel 8 12).height.toNat)
    ∧ ¬ ((panel 8 12).InBounds 0 12 ∧ (12#16).toNat + (0#16).toNat ≤ (panel 8 12).height.toNat) := by decide

theorem witness_RectRefusesBadCorners :
    ¬ ((panel 16 8).InBounds 1 1 ∧ (panel 16 8).InBounds 16 6) ∧ (3#16) = 3#16 ∧ (2#16) = 2#16 := by decide

/-- The smallest box, one pixel, and the largest of a panel. -/
theorem witness_RectHalfOpenPaintsFourRuns :
    (panel 16 8).fb.wf = true ∧ (panel 16 8).InBounds 3 2 ∧ (panel 16 8).InBounds 4 3
    ∧ (panel 16 8).InBounds 0 0 ∧ (panel 16 8).InBounds 15 7
    ∧ (panel 16 8).cfg.rectExtent = .halfOpen
    ∧ 3 = min (3#16).toNat (4#16).toNat ∧ 1 = absDiff (4#16).toNat (3#16).toNat
    ∧ 0 < absDiff (15#16).toNat (0#16).toNat ∧ 0 < absDiff (7#16).toNat (0#16).toNat := by decide

theorem witness_RectInclusivePaintsFourSides :
    (State.fresh inclusive 16 8).fb.wf = true ∧ (State.fresh inclusive 16 8).InBounds 15 7
    ∧ (State.fresh inclusive 16 8).InBounds 0 6
    ∧ (State.fresh inclusive 16 8).cfg.rectExtent = .inclusive
    ∧ 0 = min (15#16).toNat (0#16).toNat ∧ 6 = min (7#16).toNat (6#16).toNat
    ∧ 15 = absDiff (0#16).toNat (15#16).toNat ∧ 1 = absDiff (6#16).toNat (7#16).toNat := by decide

/-- A border, and the box of one pixel. -/
theorem witness_RectHalfOpenIsTheClosedBorder :
    (panel 16 8).fb.wf = true ∧ (panel 16 8).InBounds 3 2 ∧ (panel 16 8).InBounds 4 6
    ∧ (panel 16 8).InBounds 4 3 ∧ (panel 16 8).cfg.rectExtent = .halfOpen
    ∧ 1 = absDiff (4#16).toNat (3#16).toNat ∧ 4 = absDiff (6#16).toNat (2#16).toNat
    ∧ 1 = absDiff (3#16).toNat (2#16).toNat := by decide

/-- Both readings, a box with no area, and a corner outside. -/
theorem witness_FrectFillsTheBox :
    (panel 16 8).fb.wf = true ∧ ((panel 16 8).InBounds 13 5 ∧ (panel 16 8).InBounds 2 1)
    ∧ (panel 16 8).cfg.rectExtent = .halfOpen ∧ (State.fresh inclusive 16 8).fb.wf = true
    ∧ ((State.fresh inclusive 16 8).InBounds 5 5 ∧ (State.fresh inclusive 16 8).InBounds 5 5)
    ∧ (State.fresh inclusive 16 8).cfg.rectExtent = .inclusive
    ∧ 2 = min (13#16).toNat (2#16).toNat ∧ 1 = min (5#16).toNat (1#16).toNat
    ∧ 11 = absDiff (2#16).toNat (13#16).toNat ∧ 0 = absDiff (5#16).toNat (5#16).toNat
    ∧ ¬ ((panel 16 8).InBounds 0 0 ∧ (panel 16 8).InBounds 15 8) := by decide

theorem witness_TexbltCopiesClippedRows :
    (panel 24 4).fb.wf = true
    ∧ [0x11#8, 0x22, 0x33, 0x44, 0x55, 0x66].length = (3#16).toNat * (2#16).toNat
    ∧ ([] : List Byte).length = (0#16).toNat * (0#16).toNat
    ∧ (panel 24 4).InBounds 23 3 ∧ ¬ (panel 24 4).InBounds 24 0 ∧ ¬ (panel 24 4).InBounds 0 4 := by decide

theorem witness_WrongPayloadLengthIsIllegal :
    ¬ (Instr.texblt 0 0 1 1 []).WellFormed ∧ ¬ (Instr.texdec 0 [0x00]).WellFormed := by decide

theorem witness_DrawingTwiceIsDrawingOnce :
    Idempotent (.rect 1 1 10 6 false) = true ∧ (panel 16 8).fb.wf = true
    ∧ ∃ t, exec (.rect 1 1 10 6 false) (panel 16 8) = .next t := ⟨rfl, by decide, _, rfl⟩

/-- The last cell that fits, one too far right, one too low. -/
theorem witness_PutchDrawsTheCell :
    (panel 16 8).fb.wf = true
    ∧ ((panel 16 8).InBounds 11 0 ∧ (11#16).toNat + 5 ≤ (panel 16 8).width.toNat
      ∧ (0#16).toNat + 8 ≤ (panel 16 8).height.toNat)
    ∧ ¬ ((panel 16 8).InBounds 12 0 ∧ (12#16).toNat + 5 ≤ (panel 16 8).width.toNat
      ∧ (0#16).toNat + 8 ≤ (panel 16 8).height.toNat)
    ∧ ¬ ((panel 16 8).InBounds 0 1 ∧ (0#16).toNat + 5 ≤ (panel 16 8).width.toNat
      ∧ (1#16).toNat + 8 ≤ (panel 16 8).height.toNat) := by decide

theorem witness_PutchIsOpaque :
    (State.fresh lettered 16 8).fb.wf = true
    ∧ (withRow (State.fresh lettered 16 8) 0 [0x00]).fb.wf = true
    ∧ (State.fresh lettered 16 8).CellFits 11 0
    ∧ (∃ t, exec (.putch 11 0 0x41 false) (State.fresh lettered 16 8) = .next t)
    ∧ ∃ t, exec (.putch 11 0 0x41 false) (withRow (State.fresh lettered 16 8) 0 [0x00]) = .next t :=
  ⟨by decide, by decide, by decide, ⟨_, rfl⟩, _, rfl⟩

/-- A cursor whose cell fits, the cursor after it, and no Printer. -/
theorem witness_PrchPrintsAndAdvances :
    typing.width.toNat % 8 = 0 ∧ typing.pr.set = true ∧ typing.CellFits typing.pr.x typing.pr.y
    ∧ (let after := { typing with pr := ⟨true, 25, 0, false⟩ }
       after.pr.set = true ∧ ¬ after.CellFits after.pr.x after.pr.y)
    ∧ (panel 24 10).pr.set = false := by decide

theorem witness_DclrSendsTheClearFrame : (panel 16 2).TransportAnswers := by decide

theorem witness_RfshSendsEveryRow :
    ((panel 8 255).height.toNat ≤ 255 ∧ (panel 8 255).TransportAnswers)
    ∧ ((panel 8 0).height.toNat ≤ 255 ∧ (panel 8 0).TransportAnswers)
    ∧ 255 < (panel 8 256).height.toNat := by decide

theorem witness_RflnSendsOneRow :
    ((254#16).toNat < (panel 8 300).height.toNat ∧ (254#16).toNat + 1 ≤ 255 ∧ (panel 8 300).TransportAnswers)
    ∧ ((255#16).toNat < (panel 8 300).height.toNat ∧ 255 < (255#16).toNat + 1)
    ∧ ¬ (300#16).toNat < (panel 8 300).height.toNat := by decide

theorem witness_LineNumbersAbove255AreRefused :
    255 < (panel 8 256).height.toNat
    ∧ ((255#16).toNat < (panel 8 256).height.toNat ∧ 255 < (255#16).toNat + 1)
    ∧ Transmits (.fbclr true) = false := by decide

/-- One frame of each kind, and a full frame of no rows and of empty rows. -/
theorem witness_FrameLengths :
    (∃ t f, exec .dclr busy = .next t ∧ t.frames = f :: busy.frames)
    ∧ (∃ t f, exec .rfsh busy = .next t ∧ t.frames = f :: busy.frames)
    ∧ (∃ t f, exec (.rfln 1) busy = .next t ∧ t.frames = f :: busy.frames)
    ∧ (∃ t f, exec .rfsh (panel 8 0) = .next t ∧ t.frames = f :: (panel 8 0).frames)
    ∧ (panel 8 0).height = 0
    ∧ (∃ t f, exec .rfsh (panel 0 5) = .next t ∧ t.frames = f :: (panel 0 5).frames)
    ∧ (panel 0 5).bpr = 0 :=
  ⟨⟨_, _, rfl, rfl⟩, ⟨_, _, rfl, rfl⟩, ⟨_, _, rfl, rfl⟩, ⟨_, _, rfl, rfl⟩, rfl, ⟨_, _, rfl, rfl⟩, rfl⟩

/-- The last row and the last byte of a row, with a frame of each kind. -/
theorem witness_FramesFieldByField :
    (∃ t f, exec .dclr busy = .next t ∧ t.frames = f :: busy.frames)
    ∧ (∃ t f, exec .rfsh busy = .next t ∧ t.frames = f :: busy.frames)
    ∧ (∃ t f, exec (.rfln 1) busy = .next t ∧ t.frames = f :: busy.frames)
    ∧ 1 < busy.height.toNat ∧ 1 < busy.bpr :=
  ⟨⟨_, _, rfl, rfl⟩, ⟨_, _, rfl, rfl⟩, ⟨_, _, rfl, rfl⟩, by decide, by decide⟩

theorem witness_VcomInvertsOncePerTransmission :
    (∃ t, exec (.rfln 1) busy = .next t) ∧ ∃ t, exec (.rfln 2) busy = .next t := ⟨⟨_, rfl⟩, _, rfl⟩

/-- Two frames since reset, the second answered `Err`. -/
theorem witness_VcomBitsAlternate :
    let s := { panel 8 1 with
      writes := 2
      trace := [{ sent := some ⟨[0x06, 0x00], false⟩, result := .error .transportError },
        { sent := none, result := .ok .nothing },
        { sent := some ⟨[0x01, 0x01, 0xFF, 0x00, 0x00], true⟩, result := .ok .nothing }] }
    s.Inv ∧ s.frames.reverse[0]? = some ⟨[0x01, 0x01, 0xFF, 0x00, 0x00], true⟩
      ∧ s.frames.reverse[1]? = some ⟨[0x06, 0x00], false⟩ := by decide

/-- Too short for a header, one byte short of the rows, the rows exactly, and with a byte more. -/
theorem witness_TexdecCutsTheRows :
    ([0x01#8, 0x00, 0x01].length = (3#32).toNat ∧ [0x01#8, 0x00, 0x01].length < 4)
    ∧ ([0x08#8, 0x00, 0x01, 0x00].length = (4#32).toNat ∧ [0x08#8, 0x00, 0x01, 0x00].length - 4 < 1 * 1)
    ∧ ([0x08#8, 0x00, 0x01, 0x00, 0x3C].length = (5#32).toNat
      ∧ 1 * 1 ≤ [0x08#8, 0x00, 0x01, 0x00, 0x3C].length - 4)
    ∧ 1 * 1 ≤ [0x08#8, 0x00, 0x01, 0x00, 0x3C, 0x99].length - 4
    ∧ 8 = ([0x08#8, 0x00, 0x01, 0x00].getD 0 0).toNat + 256 * ([0x08#8, 0x00, 0x01, 0x00].getD 1 0).toNat
    ∧ 1 = ([0x08#8, 0x00, 0x01, 0x00].getD 2 0).toNat + 256 * ([0x08#8, 0x00, 0x01, 0x00].getD 3 0).toNat
    ∧ 1 = (8 + 7) / 8 := by decide

theorem witness_AssetRoundTrip :
    [[0x3C#8], [0xC3]].length = (2#16).toNat
    ∧ (∀ r ∈ [[0x3C#8], [0xC3]], r.length = ((8#16).toNat + 7) / 8) := by decide

theorem witness_ResponseBytes :
    (∃ t c, exec (.rowrd 0) (panel 16 2) = .next t ∧ t.trace.head? = some c ∧ c.result = .ok (.row [0xFF, 0xFF]))
    ∧ (∃ t c, exec (.rowrd 2) (panel 16 2) = .next t ∧ t.trace.head? = some c
      ∧ c.result = .error .outOfBounds)
    ∧ ∃ t c v, exec (.fbclr true) (panel 16 2) = .next t ∧ t.trace.head? = some c ∧ c.result = .ok v :=
  ⟨⟨_, _, rfl, rfl, rfl⟩, ⟨_, _, rfl, rfl, rfl⟩, _, _, _, rfl, rfl, rfl⟩

end Sys2Proof.Tests
end

/-! # The state: what operations write, and what they never read (10_state.md) -/

namespace Sys2Proof.Machine

/-! ## The access table (R30) -/

/-- Settles O8: an operation is local, fails its validation, or transmits; each writes what R30 allows. -/
theorem operationsWriteOnlyWhatTheyMay : Obligations.OperationsWriteOnlyWhatTheyMay := by
  intro i s t h
  rcases exec_next h with ⟨-, m, p, r, rfl, hl⟩ | ⟨hi, ⟨e, rfl, -⟩ | ⟨f, rfl, -⟩⟩
  · exact ⟨rfl, rfl, rfl, rfl, hl.fb_kept, hl.pr_kept, fun _ => ⟨rfl, rfl, rfl, rfl⟩⟩
  · exact ⟨rfl, rfl, rfl, rfl, fun _ => rfl, fun _ => rfl, fun _ => ⟨rfl, rfl, rfl, rfl⟩⟩
  · exact ⟨rfl, rfl, rfl, rfl, fun _ => rfl, fun _ => rfl, fun h' => by simp [hi] at h'⟩

/-! ## The same operation under another flag and another record -/

/-- `s` with the VCOM flag at `v` and the record `tr`. -/
def State.overlay (s : State) (v : Bool) (tr : List Completion) : State :=
  { s with vcom := v, trace := tr }

/-- The answer `t` of one operation as it would stand over the flag `v` and the record `tr`: its newest
completion, on top of `tr`. -/
def State.carried (v : Bool) (tr : List Completion) (t : State) : State :=
  t.overlay v (t.trace.take 1 ++ tr)

/-- A completed operation has put one completion on top of the record. -/
theorem exec_next_trace {i : Instr} {s t : State} (h : exec i s = .next t) :
    ∃ c, t.trace = c :: s.trace := by
  rcases exec_next h with ⟨-, m, p, r, rfl, -⟩ | ⟨-, ⟨e, rfl, -⟩ | ⟨f, rfl, -⟩⟩ <;> exact ⟨_, rfl⟩

theorem State.carried_of_trace {s t : State} {c : Completion} (h : t.trace = c :: s.trace) (v : Bool)
    (tr : List Completion) : t.carried v tr = t.overlay v (c :: tr) := by
  simp [State.carried, h]

/-- Carrying an answer over goes into the branches of a validation. -/
theorem ite_carried {P : Prop} [Decidable P] {v : Bool} {tr : List Completion} {a b a' b' : State}
    (ha : a' = a.carried v tr) (hb : b' = b.carried v tr) :
    (if P then a' else b') = (if P then a else b).carried v tr := by
  split <;> assumption

/-- An operation that does not transmit leaves the flag. -/
theorem exec_local_vcom {i : Instr} {s t : State} (hi : Transmits i = false)
    (h : exec i s = .next t) : t.vcom = s.vcom := by
  obtain ⟨m, p, r, he, -⟩ := exec_local s hi
  rw [he] at h; cases h
  rfl

/-- An operation that does not transmit reads neither the flag nor the record: its conditions, the
framebuffer and Printer it leaves and its result are the same over any other. -/
theorem exec_local_overlay {i : Instr} {s t : State} (hi : Transmits i = false) (h : exec i s = .next t)
    (v : Bool) (tr : List Completion) : exec i (s.overlay v tr) = .next (t.carried v tr) := by
  cases i with
  | getpx | setpx | rowrd | line | hline | vline | frect | putch | texdec =>
    cases h
    exact congrArg Host.Outcome.next (ite_carried rfl rfl)
  | rect | texblt | prch =>
    cases h
    exact congrArg Host.Outcome.next (ite_carried (ite_carried rfl rfl) rfl)
  | fbclr | prset => cases h; rfl
  | dclr | rfsh | rfln => cases hi

/-! ## The protocol operations under another record -/

section record
variable (s : State) (tr : List Completion)

@[simp] theorem State.fullFrame_overlay : (s.overlay s.vcom tr).fullFrame = s.fullFrame := by
  simp only [State.fullFrame, State.frameRows_eq_flatMap]
  rfl

/-- Send hands over the same frame and answers the same whatever the record is. -/
theorem State.send_overlay {t : State} {f : List Byte} (h : s.send f = .next t) :
    (s.overlay s.vcom tr).send f = .next (t.carried t.vcom tr) := by
  rcases s.send_cases f with ⟨_, hf⟩ | ⟨hs, hn⟩
  · rw [hf] at h; cases h
  · rw [hn] at h; cases h
    exact if_neg (Bool.eq_false_iff.mp hs)

/-- A failed validation answers the same whatever the record is. -/
theorem State.failed_overlay {t : State} {e : ErrorKind}
    (h : (.next (s.failed e) : StepOutcome) = .next t) :
    (.next ((s.overlay s.vcom tr).failed e) : StepOutcome) = .next (t.carried t.vcom tr) := by
  cases h; rfl

end record

/-- A validation carries over when each of its two ends does. -/
theorem ite_next_of_branches {P : Prop} [Decidable P] {a b a' b' : StepOutcome} {t u : State}
    (ha : a = .next t → a' = .next u) (hb : b = .next t → b' = .next u)
    (h : (if P then a else b) = .next t) : (if P then a' else b') = .next u := by
  split at h
  next hP => rw [if_pos hP, ha h]
  next hP => rw [if_neg hP, hb h]

/-- A protocol operation validates against HEIGHT and then sends: neither sees the record. -/
theorem exec_protocol_overlay {i : Instr} {s t : State} (hi : Transmits i = true)
    (h : exec i s = .next t) (tr : List Completion) :
    exec i (s.overlay s.vcom tr) = .next (t.carried t.vcom tr) := by
  cases i with
  | dclr => exact s.send_overlay tr h
  | rfsh =>
    refine ite_next_of_branches (fun hs => ?_) (s.failed_overlay tr) h
    rw [State.fullFrame_overlay]
    exact s.send_overlay tr hs
  | rfln n =>
    exact ite_next_of_branches (ite_next_of_branches (s.send_overlay tr) (s.failed_overlay tr))
      (s.failed_overlay tr) h
  | getpx | setpx | fbclr | rowrd | line | hline | vline | rect | frect | texblt | putch | prset | prch
  | texdec => cases hi

/-! ## Non-interference (R23, R26) -/

/-- Settles O9: the answer carries over to any record, flag and all. -/
theorem operationsDoNotReadTheTrace : Obligations.OperationsDoNotReadTheTrace := by
  intro i s t tr h
  obtain ⟨c, hc⟩ := exec_next_trace h
  refine ⟨c, hc, ?_⟩
  have ho : exec i (s.overlay s.vcom tr) = .next (t.carried t.vcom tr) := by
    cases hi : Transmits i with
    | false => exact exec_local_vcom hi h ▸ exec_local_overlay hi h t.vcom tr
    | true => exact exec_protocol_overlay hi h tr
  rwa [State.carried_of_trace hc] at ho

/-- Settles O10: the answer of an operation that does not transmit carries over to any flag, over the
record it had. -/
theorem onlyProtocolOperationsSeeVcom : Obligations.OnlyProtocolOperationsSeeVcom := by
  intro i s t v hi h
  obtain ⟨c, hc⟩ := exec_next_trace h
  have ho := exec_local_overlay hi h v s.trace
  rwa [State.carried_of_trace hc, ← hc] at ho

end Sys2Proof.Machine

/-! # The framebuffer and the machine's memory: the invariant, the program, drawing twice (20_memory.md) -/

namespace Sys2Proof.Machine

/-! ## The pixels of a line lie in the box of its endpoints (41_raster_runs.md R103, R105) -/

/-- After `k` of at most `dx` steps, from an error term in `0 ≤ err < dx`, the minor coordinate has moved by
`j` steps with `0 ≤ j ≤ dy`. -/
theorem exists_bresenham_getElem {dx dy err : Int} {n k : Nat} (ystep : Int) (x : Nat) (y : Int)
    (hdy : 0 ≤ dy) (hle : dy ≤ dx) (herr : 0 ≤ err) (hlt : err < dx) (hk : k < n) (hkx : k ≤ dx) :
    ∃ j : Int, 0 ≤ j ∧ j ≤ dy
      ∧ (bresenham dx dy ystep n x y err)[k]? = some (x + k, (y + j * ystep).toNat) := by
  have hdx : 0 < dx := by omega
  have hmod := Int.emod_add_mul_ediv (err - k * dy) dx
  have hnn := Int.emod_nonneg (err - k * dy) hdx.ne'
  have hltd := Int.emod_lt_of_pos (err - k * dy) hdx
  have hj : err - k * dy + -((err - k * dy) / dx) * dx = (err - k * dy) % dx := by linarith
  have hkdy : k * dy ≤ dx * dy := Int.mul_le_mul_of_nonneg_right hkx hdy
  have hk0 : 0 ≤ k * dy := by positivity
  refine ⟨-((err - k * dy) / dx), ?_, ?_, bresenham_getElem dx dy ystep n x y err k _ hdy hle herr hlt hk
    (hj ▸ hnn) (hj ▸ hltd)⟩
  · have : (err - k * dy) / dx < 1 := Int.ediv_lt_of_lt_mul hdx (by omega)
    omega
  · have : -dy ≤ (err - k * dy) / dx := Int.le_ediv_of_mul_le hdx (by linarith)
    omega

theorem majorLine_mem_le {x1 y1 x2 y2 : Nat} {p : Nat × Nat} (hx : x1 ≤ x2)
    (hd : absDiff y2 y1 ≤ x2 - x1) (hp : p ∈ majorLine x1 y1 x2 y2) :
    p.1 ≤ max x1 x2 ∧ p.2 ≤ max y1 y2 := by
  obtain ⟨k, hk⟩ := List.mem_iff_getElem?.mp hp
  have hkn : k < x2 - x1 + 1 := by
    simpa [majorLine] using (List.getElem?_eq_some_iff.mp hk).1
  rcases Nat.eq_or_lt_of_le hx with rfl | hlt
  · obtain rfl : k = 0 := by omega
    cases (bresenham_getElem_zero ..).symm.trans hk
    simp
  · obtain ⟨j, hj0, hj, he⟩ := exists_bresenham_getElem (err := ((x2 - x1) / 2 : Nat))
      (if y1 < y2 then 1 else -1) x1 y1 (by omega) (Int.ofNat_le.mpr hd) (by omega) (by omega) hkn (by omega)
    cases he.symm.trans hk
    unfold absDiff at hj
    split <;> omega

theorem orderedLine_mem_le {x1 y1 x2 y2 : Nat} {p : Nat × Nat} (hd : absDiff y2 y1 ≤ absDiff x2 x1)
    (hp : p ∈ orderedLine x1 y1 x2 y2) : p.1 ≤ max x1 x2 ∧ p.2 ≤ max y1 y2 := by
  unfold absDiff at hd
  unfold orderedLine at hp
  split at hp
  · have := majorLine_mem_le (by omega) (by unfold absDiff; omega) hp
    omega
  · exact majorLine_mem_le (by omega) (by unfold absDiff; omega) hp

theorem linePixels_mem_le {x1 y1 x2 y2 : Nat} {p : Nat × Nat} (hp : p ∈ linePixels x1 y1 x2 y2) :
    p.1 ≤ max x1 x2 ∧ p.2 ≤ max y1 y2 := by
  unfold linePixels at hp
  split at hp
  · obtain ⟨q, hq, rfl⟩ := List.mem_map.mp hp
    exact (orderedLine_mem_le (by omega) hq).symm
  · exact orderedLine_mem_le (by omega) hp

/-! ## Nothing outside the panel is written (R49) -/

/-- WIDTH pixels are exactly the bytes of a row, and a row is at most 8191 bytes (20_memory.md R45). -/
theorem State.width_eq_bpr {s : State} (hw : s.width.toNat % 8 = 0) :
    s.width.toNat = 8 * s.bpr ∧ s.bpr ≤ 8192 := by
  have := s.width.isLt
  unfold State.bpr
  omega

theorem Memory.within_outline {m : Memory} {e : RectExtent} {b : Box} {c : Bool} {h bpr : Nat}
    (hm : m.within h bpr = true) (hW : 0 < b.W) (hH : 0 < b.H) (hx : b.x0 + b.W < 8 * bpr)
    (hy : b.y0 + b.H < h) (hb : bpr ≤ 8192) : (m.outline e b c).within h bpr = true := by
  cases e with
  | halfOpen =>
    exact Memory.within_vRun (Memory.within_hRun (Memory.within_vRun (Memory.within_hRun hm
      (by omega) (by omega) hb) (by omega) (by omega) hb) (by omega) (by omega) hb) (by omega) (by omega) hb
  | inclusive =>
    exact Memory.within_vRun (Memory.within_vRun (Memory.within_hRun (Memory.within_hRun hm
      (by omega) (by omega) hb) (by omega) (by omega) hb) (by omega) (by omega) hb) (by omega) (by omega) hb

theorem Memory.within_fillBox {m : Memory} {e : RectExtent} {b : Box} {c : Bool} {h bpr : Nat}
    (hm : m.within h bpr = true) (hx : b.x0 + b.W < 8 * bpr) (hy : b.y0 + b.H < h) (hb : bpr ≤ 8192) :
    (m.fillBox e b c).within h bpr = true := by
  cases e with
  | halfOpen => exact Memory.within_fillRows hm (by omega) (by omega) hb
  | inclusive => exact Memory.within_fillRows hm (by omega) (by omega) hb

/-- The far corner of the box of two points is one of their coordinates (42_raster_shapes.md R120). -/
theorem boxOf_far (x1 y1 x2 y2 : U16) :
    (boxOf x1 y1 x2 y2).x0 + (boxOf x1 y1 x2 y2).W = max x1.toNat x2.toNat
      ∧ (boxOf x1 y1 x2 y2).y0 + (boxOf x1 y1 x2 y2).H = max y1.toNat y2.toNat := by
  simp only [boxOf, absDiff]
  omega

/-- A validation that draws inside the panel or fails leaves nothing outside the panel. -/
theorem State.within_ite {P : Prop} [Decidable P] {a b : State} {h bpr : Nat}
    (ha : P → a.fb.within h bpr = true) (hb : ¬ P → b.fb.within h bpr = true) :
    (if P then a else b).fb.within h bpr = true := by
  split
  next hP => exact ha hP
  next hP => exact hb hP

/-- Every operation that writes the framebuffer writes inside the panel. -/
theorem exec_fb_within {i : Instr} {s t : State} (hw : s.width.toNat % 8 = 0)
    (hm : s.fb.within s.height.toNat s.bpr = true) (h : exec i s = .next t) :
    t.fb.within s.height.toNat s.bpr = true := by
  obtain ⟨hW, hb⟩ := s.width_eq_bpr hw
  cases i with
  | setpx x y c =>
    cases h
    exact State.within_ite (fun ⟨hx, hy⟩ => Memory.within_setBit hm hy (by omega) hb) fun _ => hm
  | fbclr c => cases h; exact Memory.within_clearRows hm (by omega) hb
  | line x1 y1 x2 y2 c =>
    cases h
    refine State.within_ite (fun ⟨⟨hx1, hy1⟩, hx2, hy2⟩ => ?_) fun _ => hm
    refine Memory.within_drawPixels hm (fun p hp => ?_) hb
    have := linePixels_mem_le hp
    omega
  | hline x y len c =>
    cases h
    exact State.within_ite (fun ⟨⟨hx, hy⟩, hf⟩ => Memory.within_hRun hm hy (by omega) hb) fun _ => hm
  | vline x y n c =>
    cases h
    exact State.within_ite (fun ⟨⟨hx, hy⟩, hf⟩ => Memory.within_vRun hm hf (by omega) hb) fun _ => hm
  | rect x1 y1 x2 y2 c =>
    cases h
    have ⟨hx, hy⟩ := boxOf_far x1 y1 x2 y2
    refine State.within_ite (fun ⟨⟨hx1, hy1⟩, hx2, hy2⟩ => ?_) fun _ => hm
    exact State.within_ite (fun _ => hm) fun hn =>
      Memory.within_outline hm (by omega) (by omega) (by omega) (by omega) hb
  | frect x1 y1 x2 y2 c =>
    cases h
    have ⟨hx, hy⟩ := boxOf_far x1 y1 x2 y2
    exact State.within_ite (fun ⟨⟨hx1, hy1⟩, hx2, hy2⟩ =>
      Memory.within_fillBox hm (by omega) (by omega) hb) fun _ => hm
  | texblt x y nrows rowlen payload =>
    cases h
    exact State.within_ite (fun _ => State.within_ite (fun _ => Memory.within_blitRows hm hb)
      fun _ => hm) fun _ => hm
  | putch x y code c =>
    cases h
    exact State.within_ite (fun ⟨_, hx, hy⟩ => Memory.within_drawGlyph hm hy (by omega) hb) fun _ => hm
  | prch code =>
    cases h
    exact State.within_ite (fun _ => State.within_ite
      (fun ⟨_, hx, hy⟩ => Memory.within_drawGlyph hm hy (by omega) hb) fun _ => hm) fun _ => hm
  | getpx | rowrd | prset | dclr | rfsh | rfln | texdec =>
    obtain ⟨-, -, -, -, hfb, -⟩ := operationsWriteOnlyWhatTheyMay _ s t h
    rw [hfb rfl]
    exact hm

/-! ## Every step keeps the invariant -/

/-- One more frame inverts the flag (44_protocol.md R157). -/
theorem vcomAfter_succ (cfg : Config) (k : Nat) : vcomAfter cfg (k + 1) = !vcomAfter cfg k := by
  unfold vcomAfter
  rcases Nat.mod_two_eq_zero_or_one k with h | h <;> simp [Nat.add_mod, h]

/-- A framebuffer that is canonical and inside the panel may replace the present one, and so may any
Printer and any answer that hands over no frame. -/
theorem State.Inv.record_local {s : State} {m : Memory} (h : s.Inv) (hwf : m.wf = true)
    (hin : m.within s.height.toNat s.bpr = true) (p : Printer) (r : Result) :
    (State.record { s with fb := m, pr := p } none r).Inv := by
  obtain ⟨hw, -, -, hcfg, hv, hn, hf⟩ := h
  exact ⟨hw, hwf, hin, hcfg, hv, hn, hf⟩

theorem State.Inv.failed {s : State} (h : s.Inv) (e : ErrorKind) : (s.failed e).Inv := h

/-- One Send of a frame with the command byte of the flag as it stands, a last byte 0x00 and a legal length
(30_encoding.md R60, R62, R64). -/
theorem State.Inv.transmitted {s : State} {f : List Byte} (h : s.Inv)
    (hhead : f.head? = some (s.commandByte s.cfg.writeCmd) ∨ f.head? = some (s.commandByte s.cfg.clearCmd))
    (hlast : f.getLast? = some 0x00)
    (hlen : f.length = 2 ∨ f.length = 2 + s.height.toNat * (s.bpr + 2) ∨ f.length = s.bpr + 4) :
    (s.transmitted f).Inv := by
  obtain ⟨hw, hwf, hin, hcfg, hv, hn, hf⟩ := h
  refine ⟨hw, hwf, hin, hcfg, ?_, congrArg (· + 1) hn, ?_⟩
  · exact (congrArg (!·) hv).trans (vcomAfter_succ s.cfg s.writes).symm
  · have hframe : frameOk s.cfg s.height.toNat s.bpr s.frames.length ⟨f, s.transportOk⟩ = true := by
      simpa [frameOk, hn, ← hv, State.commandByte, hlast, or_assoc] using ⟨hhead, hlen⟩
    exact Bool.and_eq_true_iff.mpr ⟨hframe, hf⟩

theorem exec_keeps_inv {i : Instr} {s t : State} (hs : s.Inv) (h : exec i s = .next t) : t.Inv := by
  have ⟨hw, hwf, hin, _⟩ := hs
  have hin' := exec_fb_within hw hin h
  rcases exec_next h with ⟨-, m, p, r, rfl, hl⟩ | ⟨-, ⟨e, rfl, -⟩ | ⟨f, rfl, hhead, hlast, hlen⟩⟩
  · exact hs.record_local (hl.wf_kept hwf) hin' p r
  · exact hs.failed e
  · exact hs.transmitted hhead hlast hlen

/-- Settles O3: a step fails on an illegal descriptor, or executes an operation, from a state that differs
in its command port, of which the invariant does not speak. -/
theorem stepKeepsInvariant : Obligations.StepKeepsInvariant := by
  intro s t hs h
  obtain ⟨d, rest, -, ⟨e, -, rfl⟩ | ⟨k, -, hx⟩⟩ := step_next h
  · exact State.Inv.failed hs .illegalCommand
  · exact exec_keeps_inv (s := { s with port := rest.drop (d.payloadLength k) }) hs hx

end Sys2Proof.Machine

namespace Sys2Proof

/-! ## An encoded operation decodes to itself, whatever follows (30_encoding.md R71 to R77) -/

/-- The opcode of an operation (30_encoding.md R74). -/
def Instr.opcode : Instr → Opcode
  | .getpx _ _ => .getpx
  | .setpx _ _ _ => .setpx
  | .fbclr _ => .fbclr
  | .rowrd _ => .rowrd
  | .line _ _ _ _ _ => .line
  | .hline _ _ _ _ => .hline
  | .vline _ _ _ _ => .vline
  | .rect _ _ _ _ _ => .rect
  | .frect _ _ _ _ _ => .frect
  | .texblt _ _ _ _ _ => .texblt
  | .putch _ _ _ _ => .putch
  | .prset _ _ _ => .prset
  | .prch _ => .prch
  | .dclr => .dclr
  | .rfsh => .rfsh
  | .rfln _ => .rfln
  | .texdec _ _ => .texdec

/-- A glyph code is the low byte of field C, and the high byte is 0 (30_encoding.md R73). -/
@[simp] theorem U16.lo_setWidth (code : Byte) : U16.lo (code.setWidth 16) = code := by
  simp [U16.lo]

@[simp] theorem U16.hi_setWidth (code : Byte) : U16.hi (code.setWidth 16) = 0 := by
  refine BitVec.eq_of_getLsbD_eq fun k hk => ?_
  simp [U16.hi]

/-- TEXDEC's payload length is read back from the two fields it is cut into (30_encoding.md R73, R75). -/
theorem Descriptor.plen_texdec (plen : BitVec 32) (bytes : List Byte) :
    (Instr.texdec plen bytes).descriptor.plen = plen := by
  simp only [Descriptor.plen, Instr.descriptor]
  refine BitVec.eq_of_getLsbD_eq fun k hk => ?_
  by_cases h : k < 16
  · simp [hk, h]
  · have hk' : 16 + (k - 16) = k := by omega
    simp [hk, h, hk', show k - 16 < 16 by omega]

theorem Instr.select_descriptor (i : Instr) : i.descriptor.select = .ok i.opcode := by
  cases i with
  | putch x y code c | prch code =>
    refine Descriptor.select_eq_ok.mpr ⟨rfl, rfl, ?_⟩
    simp [Instr.opcode, Instr.descriptor, Opcode.fields, Descriptor.unusedZero]
  | _ => rfl

theorem Instr.payloadLength_descriptor (i : Instr) :
    i.descriptor.payloadLength i.opcode = i.payloadLength := by
  cases i with
  | texdec plen bytes => exact congrArg BitVec.toNat (Descriptor.plen_texdec plen bytes)
  | _ => rfl

theorem Instr.operation_descriptor (i : Instr) :
    i.descriptor.operation i.payload i.opcode = i := by
  cases i with
  | putch x y code c => exact congrArg (Instr.putch x y · c) (U16.lo_setWidth code)
  | prch code => exact congrArg Instr.prch (U16.lo_setWidth code)
  | texdec plen bytes => exact congrArg (Instr.texdec · bytes) (Descriptor.plen_texdec plen bytes)
  | _ => rfl

theorem decode_encode_append {i : Instr} (h : i.WellFormed) (rest : List Byte) :
    decode (encode i ++ rest) = .instr i rest := by
  have hl : i.descriptor.payloadLength i.opcode = i.payload.length :=
    i.payloadLength_descriptor.trans (beq_iff_eq.mp h).symm
  rw [encode, List.append_assoc, decode_descriptor, Descriptor.decode_of_select i.select_descriptor, hl,
    List.take_left, List.drop_left, i.operation_descriptor]

end Sys2Proof

namespace Sys2Proof.Machine

/-! ## The command port is not an operation's business (00_scope.md R7) -/

/-- `s` with the bytes `p` on the command port. -/
def State.withPort (p : List Byte) (s : State) : State := { s with port := p }

/-- An answer with the bytes `p` on the command port of the next state, where there is one. -/
def portOf (p : List Byte) : StepOutcome → StepOutcome
  | .next t => .next (t.withPort p)
  | .fault r => .fault r
  | .refused r => .refused r

@[simp] theorem State.fullFrame_withPort (s : State) (p : List Byte) :
    (s.withPort p).fullFrame = s.fullFrame := by
  simp only [State.fullFrame, State.frameRows_eq_flatMap]
  rfl

/-- Two branches that are images are the image of the choice between their preimages. -/
theorem ite_eq_apply {α β : Type} {P : Prop} [Decidable P] (f : α → β) {a b : α} {a' b' : β}
    (ha : a' = f a) (hb : b' = f b) : (if P then a' else b') = f (if P then a else b) := by
  rw [ha, hb, apply_ite f]

theorem State.send_withPort (s : State) (p f : List Byte) :
    (s.withPort p).send f = portOf p (s.send f) :=
  ite_eq_apply (portOf p) rfl rfl

/-- An operation answers the same whatever the command port holds, and leaves what it holds. -/
theorem exec_withPort (i : Instr) (s : State) (p : List Byte) :
    exec i (s.withPort p) = portOf p (exec i s) := by
  cases i with
  | getpx | setpx | rowrd | line | hline | vline | frect | putch | texdec =>
    exact congrArg Host.Outcome.next (ite_eq_apply (State.withPort p) rfl rfl)
  | rect | texblt | prch =>
    exact congrArg Host.Outcome.next
      (ite_eq_apply (State.withPort p) (ite_eq_apply (State.withPort p) rfl rfl) rfl)
  | fbclr | prset => rfl
  | dclr => exact s.send_withPort p _
  | rfsh =>
    refine ite_eq_apply (portOf p) ?_ rfl
    rw [State.fullFrame_withPort, State.send_withPort]
  | rfln n =>
    exact ite_eq_apply (portOf p) (ite_eq_apply (portOf p) (s.send_withPort p _) rfl) rfl

theorem step_of_port_encode {i : Instr} {s : State} {rest : List Byte} (hi : i.WellFormed)
    (h : s.port = encode i ++ rest) : step s = exec i (s.withPort rest) := by
  rw [step, h, decode_encode_append hi]
  rfl

/-- Settles O20, by induction on the program: each step takes one operation off the port, which the
operation neither reads nor writes. -/
theorem programRunsInOrderIssued : Obligations.ProgramRunsInOrderIssued := by
  intro is
  induction is with
  | nil => exact fun s _ hp => congrArg Host.Outcome.next (congrArg (s.withPort ·) hp)
  | cons i is ih =>
    intro s hwf hp
    have ⟨hi, his⟩ := List.forall_mem_cons.mp hwf
    have hstep : core.step s = portOf (is.flatMap encode) (exec i (s.withPort [])) :=
      (step_of_port_encode hi hp).trans (exec_withPort i (s.withPort []) _)
    change _ = execAll (i :: is) (s.withPort [])
    simp only [List.length_cons, Host.Core.run, execAll, hstep]
    cases hx : exec i (s.withPort []) with
    | next t =>
      obtain ⟨-, -, -, hport, -⟩ := operationsWriteOnlyWhatTheyMay i _ t hx
      exact (ih (t.withPort _) his rfl).trans (congrArg (fun p => execAll is (t.withPort p)) hport.symm)
    | fault r => rfl
    | refused r => rfl

end Sys2Proof.Machine

namespace Sys2Proof.Machine

/-! ## Drawing twice is drawing once (20_memory.md R47, 42_raster_shapes.md R131) -/

/-- A byte stored, pixel by pixel, at any address. -/
theorem Memory.pixel_setByte_address {m : Memory} {y i x' y' : Nat} {v : Byte} (h : m.wf = true) :
    (m.setByte y i v).pixel x' y' =
      if byteAddress y' (x' / 8) = byteAddress y i then v.getLsbD (x' % 8) else m.pixel x' y' := by
  unfold Memory.pixel Memory.byteAt Memory.setByte
  rw [Memory.read_write h]
  split <;> rfl

/-- Of the byte it stores back, Apply settles the pixels under the mask and keeps the others. -/
theorem Memory.pixel_applyMask_address {m : Memory} {y i x' y' : Nat} {k : Byte} {c : Bool}
    (h : m.wf = true) :
    (m.applyMask y i k c).pixel x' y' =
      if byteAddress y' (x' / 8) = byteAddress y i ∧ k.getLsbD (x' % 8) = true then c
      else m.pixel x' y' := by
  have h8 : x' % 8 < 8 := Nat.mod_lt _ (by decide)
  unfold Memory.applyMask
  by_cases ha : byteAddress y' (x' / 8) = byteAddress y i
  · have hp : m.pixel x' y' = (m.byteAt y i).getLsbD (x' % 8) := by
      simp only [Memory.pixel, Memory.byteAt, ha]
    cases c <;> cases hk : k.getLsbD (x' % 8) <;>
      simp [Memory.pixel_setByte_address h, ha, hp, hk, h8, -BitVec.getLsbD_eq_getElem]
  · cases c <;> simp [Memory.pixel_setByte_address h, ha]

/-- `f` settles some pixels at values of its own, whatever the framebuffer held, keeps every other pixel,
and keeps the canonical form. -/
structure Overwrites (f : Memory → Memory) : Prop where
  wf : ∀ {m : Memory}, m.wf = true → (f m).wf = true
  pixel : ∀ x y, (∃ v, ∀ m : Memory, m.wf = true → (f m).pixel x y = v)
    ∨ ∀ m : Memory, m.wf = true → (f m).pixel x y = m.pixel x y

namespace Overwrites

theorem twice {f : Memory → Memory} (hf : Overwrites f) {m : Memory} (hm : m.wf = true) :
    f (f m) = f m := by
  refine Memory.ext_of_pixel (hf.wf (hf.wf hm)) (hf.wf hm) fun x y _ => ?_
  rcases hf.pixel x y with ⟨v, hv⟩ | hk
  · rw [hv _ (hf.wf hm), hv _ hm]
  · exact hk _ (hf.wf hm)

theorem keep : Overwrites fun m => m := ⟨id, fun _ _ => .inr fun _ _ => rfl⟩

/-- One drawing after another: a pixel has the later one's value, or else the earlier one's, or is kept. -/
theorem andThen {f g : Memory → Memory} (hf : Overwrites f) (hg : Overwrites g) :
    Overwrites fun m => g (f m) := by
  refine ⟨fun hm => hg.wf (hf.wf hm), fun x y => ?_⟩
  rcases hg.pixel x y with ⟨v, hv⟩ | hk
  · exact .inl ⟨v, fun m hm => hv _ (hf.wf hm)⟩
  · exact (hf.pixel x y).imp (fun ⟨v, hv⟩ => ⟨v, fun m hm => (hk _ (hf.wf hm)).trans (hv m hm)⟩)
      fun hk' m hm => (hk _ (hf.wf hm)).trans (hk' m hm)

theorem ite {P : Prop} [Decidable P] {f g : Memory → Memory} (hf : Overwrites f) (hg : Overwrites g) :
    Overwrites fun m => if P then f m else g m := by
  by_cases hP : P
  · simpa only [if_pos hP] using hf
  · simpa only [if_neg hP] using hg

theorem foldl {ι : Type} {g : Memory → ι → Memory} (hg : ∀ k, Overwrites (g · k)) (l : List ι) :
    Overwrites fun m => l.foldl g m := by
  induction l with
  | nil => exact keep
  | cons k l ih => exact (hg k).andThen ih

theorem of_pixel {f : Memory → Memory} (hwf : ∀ {m : Memory}, m.wf = true → (f m).wf = true)
    (P : Nat → Nat → Prop) [∀ x y, Decidable (P x y)] (v : Nat → Nat → Bool)
    (h : ∀ m x y, m.wf = true → (f m).pixel x y = if P x y then v x y else m.pixel x y) : Overwrites f := by
  refine ⟨hwf, fun x y => ?_⟩
  by_cases hP : P x y
  · exact .inl ⟨v x y, fun m hm => (h m x y hm).trans (if_pos hP)⟩
  · exact .inr fun m hm => (h m x y hm).trans (if_neg hP)

theorem setByte (y i : Nat) (v : Byte) : Overwrites (Memory.setByte · y i v) :=
  of_pixel Memory.wf_setByte _ _ fun _ _ _ => Memory.pixel_setByte_address

theorem applyMask (y i : Nat) (mask : Byte) (c : Bool) : Overwrites (Memory.applyMask · y i mask c) :=
  of_pixel Memory.wf_applyMask _ (fun _ _ => c) fun _ _ _ => Memory.pixel_applyMask_address

/-- SetBit is Apply under the mask of one pixel (40_framebuffer.md R94, 41_raster_runs.md R108). -/
theorem setBit (x y : Nat) (c : Bool) : Overwrites (Memory.setBit · x y c) :=
  applyMask y (x / 8) (maskSet (x % 8)) c

theorem fillBytes (y i n : Nat) (v : Byte) : Overwrites (Memory.fillBytes · y i n v) := by
  induction n generalizing i with
  | zero => exact keep
  | succ n ih => exact (setByte y i v).andThen (ih (i + 1))

theorem clearRows (bpr : Nat) (v : Byte) (y n : Nat) : Overwrites (Memory.clearRows · bpr v y n) := by
  induction n generalizing y with
  | zero => exact keep
  | succ n ih => exact (fillBytes y 0 bpr v).andThen (ih (y + 1))

theorem hRun (x y len : Nat) (c : Bool) : Overwrites (Memory.hRun · x y len c) := by
  have hlead : Overwrites (Memory.hRunLead · x y c) := ite (applyMask ..) keep
  have htrail : Overwrites (Memory.hRunTrail · (x + len) y c) := ite (applyMask ..) keep
  exact ite keep (ite (applyMask ..) ((hlead.andThen htrail).andThen (fillBytes ..)))

theorem vRun (x y h : Nat) (c : Bool) : Overwrites (Memory.vRun · x y h c) := by
  induction h generalizing y with
  | zero => exact keep
  | succ h ih => exact (setBit x y c).andThen (ih (y + 1))

theorem drawPixels (ps : List (Nat × Nat)) (c : Bool) : Overwrites (Memory.drawPixels · ps c) :=
  foldl (fun p : Nat × Nat => setBit p.1 p.2 c) ps

theorem outline (e : RectExtent) (b : Box) (c : Bool) : Overwrites (Memory.outline · e b c) := by
  cases e with
  | halfOpen => exact (((hRun ..).andThen (vRun ..)).andThen (hRun ..)).andThen (vRun ..)
  | inclusive => exact (((hRun ..).andThen (hRun ..)).andThen (vRun ..)).andThen (vRun ..)

theorem fillRows (x len : Nat) (c : Bool) (y n : Nat) : Overwrites (Memory.fillRows · x len c y n) := by
  induction n generalizing y with
  | zero => exact keep
  | succ n ih => exact (hRun x y len c).andThen (ih (y + 1))

theorem fillBox (e : RectExtent) (b : Box) (c : Bool) : Overwrites (Memory.fillBox · e b c) := by
  cases e <;> exact fillRows ..

theorem drawGlyph (cfg : Config) (x y : Nat) (code : Byte) (c : Bool) :
    Overwrites (Memory.drawGlyph · cfg x y code c) :=
  foldl (fun _ => foldl (fun _ => setBit ..) _) _

theorem blitRow (y bpr i : Nat) (vs : List Byte) : Overwrites (Memory.blitRow · y bpr i vs) := by
  induction vs generalizing i with
  | nil => exact keep
  | cons v vs ih => exact (ite (setByte ..) keep).andThen (ih (i + 1))

theorem blitRows (h bpr bc y : Nat) (rs : List (List Byte)) :
    Overwrites (Memory.blitRows · h bpr bc y rs) := by
  induction rs generalizing y with
  | nil => exact keep
  | cons r rs ih => exact ite keep ((blitRow y bpr bc r).andThen (ih (y + 1)))

end Overwrites

/-- `s` with another framebuffer and record: all that a drawing operation may change. -/
def State.repainted (s : State) (m : Memory) (tr : List Completion) : State :=
  { s with fb := m, trace := tr }

/-- How `i` answers on `s`, and on whatever drawing leaves of `s`: always with the same error, or always by
the same drawing. -/
inductive Draws (i : Instr) (s : State) : Prop where
  | fails (e : ErrorKind) (h : ∀ m tr, exec i (s.repainted m tr) = .next ((s.repainted m tr).failed e))
  | paints (f : Memory → Memory) (hf : Overwrites f)
      (h : ∀ m tr, exec i (s.repainted m tr) = .next ((s.repainted m tr).drawn (f m)))

/-- A validation that reads neither the framebuffer nor the record decides once. -/
theorem Draws.of_validation {i : Instr} {s : State} (P : Prop) [Decidable P] (e : ErrorKind)
    {f : Memory → Memory} (hf : Overwrites f)
    (h : ∀ m tr, exec i (s.repainted m tr) =
      .next (if P then (s.repainted m tr).drawn (f m) else (s.repainted m tr).failed e)) : Draws i s := by
  by_cases hP : P
  · exact .paints f hf fun m tr => (h m tr).trans (congrArg _ (if_pos hP))
  · exact .fails e fun m tr => (h m tr).trans (congrArg _ (if_neg hP))

theorem exec_draws {i : Instr} (s : State) (hi : Idempotent i = true) : Draws i s := by
  cases i with
  | setpx x y c =>
    exact .of_validation (s.InBounds x y) .outOfBounds (.setBit x.toNat y.toNat c) fun _ _ => rfl
  | fbclr c => exact .paints _ (.clearRows s.bpr (fillByte c) 0 s.height.toNat) fun _ _ => rfl
  | line x1 y1 x2 y2 c =>
    exact .of_validation (s.BothInBounds x1 y1 x2 y2) .outOfBounds
      (.drawPixels (linePixels x1.toNat y1.toNat x2.toNat y2.toNat) c) fun _ _ => rfl
  | hline x y len c =>
    exact .of_validation (s.HFits x y len) .outOfBounds (.hRun x.toNat y.toNat len.toNat c) fun _ _ => rfl
  | vline x y h c =>
    exact .of_validation (s.VFits x y h) .outOfBounds (.vRun x.toNat y.toNat h.toNat c) fun _ _ => rfl
  | rect x1 y1 x2 y2 c =>
    by_cases hd : (boxOf x1 y1 x2 y2).W = 0 ∨ (boxOf x1 y1 x2 y2).H = 0
    · refine .fails .outOfBounds fun m tr => ?_
      simp only [exec, execRect, if_pos hd, ite_self]
    · refine .of_validation (s.BothInBounds x1 y1 x2 y2) .outOfBounds
        (.outline s.cfg.rectExtent (boxOf x1 y1 x2 y2) c) fun m tr => ?_
      simp only [exec, execRect, if_neg hd]
      rfl
  | frect x1 y1 x2 y2 c =>
    exact .of_validation (s.BothInBounds x1 y1 x2 y2) .outOfBounds
      (.fillBox s.cfg.rectExtent (boxOf x1 y1 x2 y2) c) fun _ _ => rfl
  | texblt x y nrows rowlen payload =>
    by_cases hl : payload.length = nrows.toNat * rowlen.toNat
    · exact .of_validation (s.InBounds x y) .outOfBounds
        (.blitRows s.height.toNat s.bpr (x.toNat / 8) y.toNat (payloadRows rowlen.toNat nrows.toNat payload))
        fun m tr => congrArg _ (if_pos hl)
    · exact .fails .illegalCommand fun m tr => congrArg _ (if_neg hl)
  | putch x y code c =>
    exact .of_validation (s.CellFits x y) .outOfBounds (.drawGlyph s.cfg x.toNat y.toNat code c)
      fun _ _ => rfl
  | getpx | rowrd | prset | prch | dclr | rfsh | rfln | texdec => cases hi

/-- Settles O38: the second time the operation answers as the first time, and its drawing overwrites. -/
theorem drawingTwiceIsDrawingOnce : Obligations.DrawingTwiceIsDrawingOnce := by
  intro i s t hi hwf h
  cases exec_draws s hi with
  | fails e he =>
    cases (he s.fb s.trace).symm.trans h
    exact ⟨_, he s.fb _, rfl⟩
  | paints f hf he =>
    cases (he s.fb s.trace).symm.trans h
    exact ⟨_, he (f s.fb) _, hf.twice hwf⟩

end Sys2Proof.Machine

/-! # The encoding: descriptors and their words, decoding, stepping, frames and responses (30_encoding.md) -/

namespace Sys2Proof

/-- Settles O11: an encoded operation decodes to itself, whatever follows. -/
theorem decodeOfEncodeIsTheOperation : Obligations.DecodeOfEncodeIsTheOperation :=
  fun _ rest h => decode_encode_append h rest

/-! ## The opcode and the fields in use (R73, R74) -/

/-- The byte of an opcode (30_encoding.md R74). -/
def Opcode.code : Opcode → Byte
  | .getpx => 0x01
  | .setpx => 0x02
  | .fbclr => 0x03
  | .rowrd => 0x04
  | .line => 0x10
  | .hline => 0x11
  | .vline => 0x12
  | .rect => 0x13
  | .frect => 0x14
  | .texblt => 0x15
  | .putch => 0x16
  | .prset => 0x18
  | .prch => 0x19
  | .dclr => 0x20
  | .rfsh => 0x21
  | .rfln => 0x22
  | .texdec => 0x30

theorem opcodeOf_eq_some_iff {op : Byte} {k : Opcode} : opcodeOf op = some k ↔ op = k.code := by
  constructor
  · intro h
    unfold opcodeOf at h
    split at h <;> cases h
    all_goals exact BitVec.eq_of_toNat_eq ‹_›
  · rintro rfl
    cases k <;> rfl

/-- A descriptor with the operation's opcode and the fields it uses, every other bit cleared. -/
def Descriptor.used (d : Descriptor) (k : Opcode) : Descriptor :=
  { op := k.code, c := k.fields.c && d.c, rsv := 0
    A := if k.fields.A then d.A else 0
    B := if k.fields.B then d.B else 0
    C := match k.fields.C with | .unused => 0 | .code => d.C.lo.setWidth 16 | .full => d.C
    D := if k.fields.D then d.D else 0 }

theorem U16.eq_iff {v w : U16} : v = w ↔ v.hi = w.hi ∧ v.lo = w.lo := by
  refine ⟨fun h => h ▸ ⟨rfl, rfl⟩, fun ⟨hh, hl⟩ => ?_⟩
  rw [← U16.ofBytes_lo_hi v, hh, hl, U16.ofBytes_lo_hi]

theorem U16.setWidth_lo_eq_self_iff {v : U16} : v.lo.setWidth 16 = v ↔ v.hi = 0 := by
  rw [U16.eq_iff]
  simp [eq_comm]

theorem usedField_eq_self_iff {u : Bool} {v : U16} :
    (if u then v else 0) = v ↔ (u || v == 0) = true := by
  cases u with
  | false => exact eq_comm.trans beq_iff_eq.symm
  | true => simp

theorem usedColour_eq_self_iff {u c : Bool} : (u && c) = c ↔ (u || !c) = true := by
  revert u c
  decide

/-- A descriptor loses nothing when its unused bits are cleared exactly when it is legal (R77). -/
theorem Descriptor.used_eq_self_iff {d : Descriptor} {k : Opcode} :
    d.used k = d ↔ d.op = k.code ∧ d.rsv = 0 ∧ d.unusedZero k.fields = true := by
  obtain ⟨op, c, rsv, A, B, C, D⟩ := d
  simp only [used, unusedZero, Descriptor.mk.injEq, Bool.and_eq_true, usedField_eq_self_iff,
    usedColour_eq_self_iff, eq_comm (b := op), eq_comm (b := rsv)]
  cases k.fields.C with
  | unused => simp only [beq_iff_eq, eq_comm (b := C)]; tauto
  | code => simp only [beq_iff_eq, U16.setWidth_lo_eq_self_iff]; tauto
  | full => tauto

theorem Descriptor.select_eq_ok_iff_used {d : Descriptor} {k : Opcode} :
    d.select = .ok k ↔ d.used k = d := by
  rw [Descriptor.select_eq_ok, opcodeOf_eq_some_iff, Descriptor.used_eq_self_iff]

/-! ## An operation has one encoding (R71 to R75) -/

theorem Descriptor.setWidth_plen (d : Descriptor) : d.plen.setWidth 16 = d.C := by
  refine BitVec.eq_of_getLsbD_eq fun k hk => ?_
  simp [Descriptor.plen, hk]

theorem Descriptor.setWidth_plen_shift (d : Descriptor) : (d.plen >>> 16).setWidth 16 = d.D := by
  refine BitVec.eq_of_getLsbD_eq fun k hk => ?_
  simp [Descriptor.plen, hk, show 16 + k < 32 by omega]

/-- The operation read from a descriptor is encoded in the fields it uses. -/
theorem Descriptor.descriptor_operation (d : Descriptor) (k : Opcode) (p : List Byte) :
    (d.operation p k).descriptor = d.used k := by
  cases k with
  | texdec =>
    simp only [Descriptor.operation, Instr.descriptor, d.setWidth_plen, d.setWidth_plen_shift]
    rfl
  | _ => rfl

theorem Descriptor.payload_operation (d : Descriptor) (k : Opcode) (bs : List Byte) :
    (d.operation (bs.take (d.payloadLength k)) k).payload = bs.take (d.payloadLength k) := by
  cases k <;> rfl

theorem Descriptor.decode_eq_instr_iff {d : Descriptor} {tl rest : List Byte} {i : Instr} :
    d.decode tl = .instr i rest ↔ ∃ k, d.select = .ok k ∧
      i = d.operation (tl.take (d.payloadLength k)) k ∧ rest = tl.drop (d.payloadLength k) := by
  cases h : d.select <;> simp [Descriptor.decode, h, eq_comm]

theorem Descriptor.decode_eq_illegal_iff {d : Descriptor} {tl rest : List Byte} {why : DecodeError} :
    d.decode tl = .illegal why rest ↔ d.select = .error why ∧ tl = rest := by
  cases h : d.select <;> simp [Descriptor.decode, h]

theorem eq_encode_append_of_decode {bs rest : List Byte} {i : Instr} (h : decode bs = .instr i rest) :
    bs = encode i ++ rest := by
  rcases decode_cases bs with ⟨-, hd⟩ | ⟨d, tl, rfl, hd⟩
  · rw [hd] at h
    cases h
  · obtain ⟨k, hk, rfl, rfl⟩ := Descriptor.decode_eq_instr_iff.mp (hd.symm.trans h)
    rw [encode, Descriptor.payload_operation, Descriptor.descriptor_operation,
      Descriptor.select_eq_ok_iff_used.mp hk, List.append_assoc, List.take_append_drop]

/-- Settles O12: the descriptor that was read has no bits but those its operation uses, and the payload and
the rest are the two parts of what stands behind it. -/
theorem decodedBytesAreTheEncoding : Obligations.DecodedBytesAreTheEncoding :=
  fun _ _ _ => eq_encode_append_of_decode

/-! ## The word of a descriptor, field by field (R72) -/

theorem append_eq_append_iff {m n : Nat} {a c : BitVec m} {b d : BitVec n} :
    a ++ b = c ++ d ↔ a = c ∧ b = d := by
  refine ⟨fun h => ?_, fun ⟨ha, hb⟩ => ha ▸ hb ▸ rfl⟩
  have hl := congrArg (BitVec.extractLsb' n m) h
  have hr := congrArg (BitVec.setWidth n) h
  rw [BitVec.extractLsb'_append_eq_left, BitVec.extractLsb'_append_eq_left] at hl
  rw [BitVec.setWidth_append_eq_right, BitVec.setWidth_append_eq_right] at hr
  exact ⟨hl, hr⟩

/-- The fields of a descriptor side by side, the opcode lowest (30_encoding.md R72). -/
def Descriptor.bits (d : Descriptor) :=
  d.D.hi ++ d.D.lo ++ d.C.hi ++ d.C.lo ++ d.B.hi ++ d.B.lo ++ d.A.hi ++ d.A.lo
    ++ (d.rsv ++ BitVec.ofBool d.c) ++ d.op

theorem Descriptor.colourByte_eq_append (d : Descriptor) : d.colourByte = d.rsv ++ BitVec.ofBool d.c :=
  BitVec.setWidth_append_eq_shiftLeft_setWidth_or.symm.trans (BitVec.setWidth_eq _)

theorem Descriptor.word_eq_bits (d : Descriptor) : d.word = d.bits := by
  have h : d.word = d.bits.setWidth 80 := by
    rw [Descriptor.bits, ← Descriptor.colourByte_eq_append]
    simp only [BitVec.setWidth_append_eq_shiftLeft_setWidth_or]
    simp [Descriptor.word, Descriptor.toBytes]
  exact h.trans (BitVec.setWidth_eq d.bits)

/-- The bitwise and of two descriptors. -/
def Descriptor.and (d e : Descriptor) : Descriptor :=
  ⟨d.op &&& e.op, d.c && e.c, d.rsv &&& e.rsv, d.A &&& e.A, d.B &&& e.B, d.C &&& e.C, d.D &&& e.D⟩

theorem U16.lo_and (v w : U16) : (v &&& w).lo = v.lo &&& w.lo := BitVec.setWidth_and

theorem U16.hi_and (v w : U16) : (v &&& w).hi = v.hi &&& w.hi := by
  simp [U16.hi, BitVec.ushiftRight_and_distrib]

theorem Descriptor.bits_and (d e : Descriptor) : (d.and e).bits = d.bits &&& e.bits := by
  simp only [Descriptor.bits, Descriptor.and, BitVec.and_append, U16.lo_and, U16.hi_and,
    BitVec.ofBool_and_ofBool]

theorem Descriptor.bits_inj {d e : Descriptor} : d.bits = e.bits ↔ d = e := by
  obtain ⟨op, c, rsv, A, B, C, D⟩ := d
  obtain ⟨op', c', rsv', A', B', C', D'⟩ := e
  simp only [Descriptor.bits, append_eq_append_iff, Descriptor.mk.injEq, U16.eq_iff,
    BitVec.ofBool_eq_iff_eq]
  tauto

theorem Descriptor.word_and (d e : Descriptor) : (d.and e).word = d.word &&& e.word := by
  simp only [Descriptor.word_eq_bits]
  exact Descriptor.bits_and d e

theorem Descriptor.word_inj {d e : Descriptor} : d.word = e.word ↔ d = e := by
  simp only [Descriptor.word_eq_bits]
  exact Descriptor.bits_inj

/-! ## The rows of the opcode table are descriptors (R74) -/

/-- The descriptor of a row's match word: the opcode alone. -/
def Opcode.pattern (k : Opcode) : Descriptor := ⟨k.code, false, 0, 0, 0, 0, 0⟩

/-- The descriptor of a row's mask: the opcode, the reserved bits and the fields the operation does not use. -/
def Opcode.mask (k : Opcode) : Descriptor :=
  { op := BitVec.allOnes 8, c := !k.fields.c, rsv := BitVec.allOnes 7
    A := if k.fields.A then 0 else BitVec.allOnes 16
    B := if k.fields.B then 0 else BitVec.allOnes 16
    C := match k.fields.C with | .unused => BitVec.allOnes 16 | .code => 0xFF00 | .full => 0
    D := if k.fields.D then 0 else BitVec.allOnes 16 }

def Opcode.row (k : Opcode) : OpcodeRow := ⟨k, k.pattern.word, k.mask.word⟩

/-- The opcodes in the order of the table. -/
def Opcode.all : List Opcode :=
  [.getpx, .setpx, .fbclr, .rowrd, .line, .hline, .vline, .rect, .frect, .texblt, .putch, .prset, .prch,
    .dclr, .rfsh, .rfln, .texdec]

theorem Opcode.mem_all (k : Opcode) : k ∈ Opcode.all := by
  cases k <;> decide

theorem opcodeTable_eq_map_row : opcodeTable = Opcode.all.map Opcode.row := by
  decide

theorem mem_opcodeTable_iff {r : OpcodeRow} : r ∈ opcodeTable ↔ ∃ k, Opcode.row k = r := by
  simp [opcodeTable_eq_map_row, Opcode.mem_all]

theorem maskedField_eq_zero_iff {u : Bool} {v : U16} :
    v &&& (if u then 0 else BitVec.allOnes 16) = 0 ↔ (u || v == 0) = true := by
  cases u with
  | false => simp only [Bool.false_eq_true, if_false, BitVec.and_allOnes, Bool.false_or, beq_iff_eq]
  | true => simp

theorem maskedHi_eq_zero_iff {v : U16} : v &&& 0xFF00 = 0 ↔ v.hi = 0 := by
  have hhi : U16.hi 0xFF00 = BitVec.allOnes 8 := by decide
  have hlo : U16.lo 0xFF00 = 0 := by decide
  rw [U16.eq_iff, U16.hi_and, U16.lo_and, hhi, hlo, BitVec.and_allOnes]
  simp [U16.hi, U16.lo]

theorem maskedColour_eq_false_iff {u c : Bool} : (c && !u) = false ↔ (u || !c) = true := by
  revert u c
  decide

theorem Descriptor.and_mask_eq_pattern_iff {d : Descriptor} {k : Opcode} :
    d.and k.mask = k.pattern ↔ d.op = k.code ∧ d.rsv = 0 ∧ d.unusedZero k.fields = true := by
  simp only [Descriptor.and, Opcode.mask, Opcode.pattern, unusedZero, Descriptor.mk.injEq,
    Bool.and_eq_true, maskedField_eq_zero_iff, maskedColour_eq_false_iff, BitVec.and_allOnes]
  cases k.fields.C with
  | unused => simp only [beq_iff_eq, BitVec.and_allOnes]; tauto
  | code => simp only [beq_iff_eq, maskedHi_eq_zero_iff]; tauto
  | full => simp only [BitVec.ofNat_eq_ofNat, BitVec.and_zero]; tauto

theorem Descriptor.word_matches_row_iff {d : Descriptor} {k : Opcode} :
    d.word &&& k.row.mask = k.row.pattern ↔ d.select = .ok k := by
  rw [Descriptor.select_eq_ok, opcodeOf_eq_some_iff, ← Descriptor.and_mask_eq_pattern_iff,
    ← Descriptor.word_inj, Descriptor.word_and]
  rfl

theorem Descriptor.exists_decode_illegal_iff {d : Descriptor} {tl : List Byte} :
    (∃ why r, d.decode tl = .illegal why r) ↔ ∀ k, d.select ≠ .ok k := by
  cases h : d.select <;> simp [Descriptor.decode_eq_illegal_iff, h]

/-- Settles O13: every row is the mask and the match word of an opcode, and a descriptor under that mask is
the match word exactly when it selects the opcode. -/
theorem decoderFollowsMatchAndMask : Obligations.DecoderFollowsMatchAndMask := by
  intro d rest
  constructor
  · intro k
    rw [← Descriptor.word_matches_row_iff]
    constructor
    · exact fun h => ⟨k.row, mem_opcodeTable_iff.mpr ⟨k, rfl⟩, rfl, h⟩
    · rintro ⟨r, hr, rfl, h⟩
      obtain ⟨k, rfl⟩ := mem_opcodeTable_iff.mp hr
      exact h
  · rw [decode_descriptor, Descriptor.exists_decode_illegal_iff]
    simp only [mem_opcodeTable_iff, forall_exists_index, forall_apply_eq_imp_iff, ne_eq,
      Descriptor.word_matches_row_iff]

/-! ## No two rows match one word (R74) -/

theorem opcodeTable_mask_covers_opcode {r : OpcodeRow} (h : r ∈ opcodeTable) :
    r.mask &&& 0xFF = 0xFF := by
  revert r
  decide

theorem opcodeTable_opcodes_distinct :
    opcodeTable.Pairwise fun a b => a.pattern &&& 0xFF ≠ b.pattern &&& 0xFF := by
  decide

theorem opcodeByte_of_matches {w : BitVec 80} {r : OpcodeRow} (hr : r ∈ opcodeTable)
    (h : w &&& r.mask = r.pattern) : r.pattern &&& 0xFF = w &&& 0xFF := by
  rw [← h, BitVec.and_assoc, opcodeTable_mask_covers_opcode hr]

/-- Settles O14: two rows that match one word have its opcode byte, and the opcode bytes are distinct. -/
theorem opcodeRowsDoNotOverlap : Obligations.OpcodeRowsDoNotOverlap := by
  intro w
  refine opcodeTable_opcodes_distinct.imp_of_mem fun ha hb hne ⟨hma, hmb⟩ => hne ?_
  rw [opcodeByte_of_matches ha hma, opcodeByte_of_matches hb hmb]

end Sys2Proof

namespace Sys2Proof.Machine

/-! ## What a step does with what the decoder answers (R71, R77) -/

theorem decode_of_length_lt {bs : List Byte} (h : bs.length < 10) : decode bs = .incomplete := by
  rcases decode_cases bs with ⟨-, hd⟩ | ⟨d, rest, rfl, -⟩
  · exact hd
  · rw [List.length_append, Descriptor.length_toBytes] at h
    omega

theorem step_of_instr {s : State} {i : Instr} {rest : List Byte} (h : decode s.port = .instr i rest) :
    step s = exec i { s with port := rest } := by
  rw [step, h]

theorem step_of_illegal {s : State} {why : DecodeError} {rest : List Byte}
    (h : decode s.port = .illegal why rest) :
    step s = .next (State.failed { s with port := rest } .illegalCommand) := by
  rw [step, h]

theorem step_of_incomplete {s : State} (h : decode s.port = .incomplete) :
    step s = .refused (if s.port = [] then .awaitingCommand else .incompleteDescriptor) := by
  rw [step, h]

/-- Settles O17. -/
theorem stepRunsTheDecodedOperation : Obligations.StepRunsTheDecodedOperation :=
  fun _ _ _ => step_of_instr

/-- Settles O18. -/
theorem stepWaitsForADescriptor : Obligations.StepWaitsForADescriptor :=
  fun _ h => step_of_incomplete (decode_of_length_lt h)

theorem eq_toBytes_append_of_decode_illegal {bs rest : List Byte} {why : DecodeError}
    (h : decode bs = .illegal why rest) : ∃ d : Descriptor, bs = d.toBytes ++ rest := by
  rcases decode_cases bs with ⟨-, hd⟩ | ⟨d, tl, rfl, hd⟩
  · rw [hd] at h
    cases h
  · obtain ⟨-, rfl⟩ := Descriptor.decode_eq_illegal_iff.mp (hd.symm.trans h)
    exact ⟨d, rfl⟩

theorem exec_next_port {i : Instr} {s t : State} (h : exec i s = .next t) : t.port = s.port := by
  obtain ⟨-, -, -, hport, -⟩ := operationsWriteOnlyWhatTheyMay i s t h
  exact hport

/-- Settles O19: the bytes taken are an operation's encoding or an illegal descriptor, ten at least, and the
operation leaves the rest on the port. -/
theorem stepTakesOneCommandAndAnswersOnce : Obligations.StepTakesOneCommandAndAnswersOnce := by
  intro s t h
  cases hd : decode s.port with
  | instr i rest =>
    rw [step_of_instr hd] at h
    obtain rfl : t.port = rest := exec_next_port h
    refine ⟨.inl ⟨i, rfl⟩, ?_, exec_next_trace (s := { s with port := t.port }) h⟩
    rw [eq_encode_append_of_decode hd, encode, List.length_append, List.length_append,
      Descriptor.length_toBytes]
    omega
  | illegal why rest =>
    rw [step_of_illegal hd] at h
    cases h
    obtain ⟨d, hp⟩ := eq_toBytes_append_of_decode_illegal hd
    refine ⟨.inr ⟨why, rfl⟩, ?_, _, rfl⟩
    rw [hp, List.length_append, Descriptor.length_toBytes, Nat.add_comm]
    rfl
  | incomplete =>
    rw [step_of_incomplete hd] at h
    cases h

/-- The three grounds of 30_encoding.md R77. -/
theorem Descriptor.select_eq_error_of_illegal {d : Descriptor}
    (h : opcodeOf d.op = none ∨ d.rsv ≠ 0
      ∨ ∃ k, opcodeOf d.op = some k ∧ d.unusedZero k.fields = false) :
    ∃ why, d.select = .error why := by
  cases hs : d.select with
  | error why => exact ⟨why, rfl⟩
  | ok k =>
    obtain ⟨hop, hr, hu⟩ := Descriptor.select_eq_ok.mp hs
    simp [hop, hr, hu] at h

/-- Settles O16: such a descriptor selects no operation, so the step fails on it. -/
theorem illegalDescriptorChangesNothing : Obligations.IllegalDescriptorChangesNothing := by
  intro s d rest hp h
  obtain ⟨why, hs⟩ := Descriptor.select_eq_error_of_illegal h
  have hd : decode s.port = .illegal why rest := by
    rw [hp, decode_descriptor]
    exact Descriptor.decode_eq_illegal_iff.mpr ⟨hs, rfl⟩
  exact step_of_illegal hd

/-! ## The invariant after reset (70_reset_and_hazards.md R210) -/

theorem State.construct_eq_ok_iff {cfg : Config} {w h : U16} {s : State} :
    State.construct cfg w h = .ok s ↔ w.toNat % 8 = 0 ∧ State.fresh cfg w h = s := by
  unfold State.construct
  split
  next hw => simp [hw]
  next hw => simp [hw]

theorem State.fresh_inv {cfg : Config} {w : U16} (h : U16) (hw : w.toNat % 8 = 0)
    (hc : cfg.legal = true) : (State.fresh cfg w h).Inv := by
  refine ⟨hw, rfl, rfl, hc, ?_, rfl, rfl⟩
  simp [State.fresh, vcomAfter]

/-- Settles O2: an empty framebuffer, no frame, and the flag at VCOM_RESET. -/
theorem resetMeetsInvariant : Obligations.ResetMeetsInvariant := by
  refine ⟨State.fresh_inv 10 (by decide) (by decide), fun cfg w h s hc hs => ?_⟩
  obtain ⟨hw, rfl⟩ := State.construct_eq_ok_iff.mp hs
  exact State.fresh_inv h hw hc

/-! ## The frame a protocol operation hands over (R61) -/

theorem State.send_frame {s t : State} {f : Transmission} {frame : List Byte}
    (h : s.send frame = .next t) (hf : t.frames = f :: s.frames) : f.bytes = frame := by
  rw [State.send_next h, State.transmitted_frames] at hf
  cases hf
  rfl

theorem State.failed_frames_ne_cons (s : State) (e : ErrorKind) (f : Transmission) :
    (s.failed e).frames ≠ f :: s.frames :=
  (List.cons_ne_self f s.frames).symm

/-- A validation that handed over a frame went on to its Send. -/
theorem ite_failed_frame {P : Prop} [Decidable P] {a : StepOutcome} {s t : State} {e : ErrorKind}
    {f : Transmission} (h : (if P then a else .next (s.failed e)) = .next t)
    (hf : t.frames = f :: s.frames) : a = .next t := by
  split at h
  · exact h
  · cases h
    exact absurd hf (s.failed_frames_ne_cons e f)

theorem dclr_frame {s t : State} {f : Transmission} (h : exec .dclr s = .next t)
    (hf : t.frames = f :: s.frames) : f.bytes = s.clearFrame :=
  State.send_frame h hf

theorem rfsh_frame {s t : State} {f : Transmission} (h : exec .rfsh s = .next t)
    (hf : t.frames = f :: s.frames) : f.bytes = s.fullFrame :=
  State.send_frame (ite_failed_frame h hf) hf

theorem rfln_frame {s t : State} {n : U16} {f : Transmission} (h : exec (.rfln n) s = .next t)
    (hf : t.frames = f :: s.frames) : f.bytes = s.lineFrame n.toNat :=
  State.send_frame (ite_failed_frame (ite_failed_frame h hf) hf) hf

/-! ## The lengths of the frames (R64) -/

theorem State.row_eq_rowBytes (s : State) (y : Nat) : s.row y = rowBytes s y := s.row_eq_map y

theorem rowBytes_of_bpr_eq_zero {s : State} (h : s.bpr = 0) (y : Nat) : rowBytes s y = [] := by
  simp [rowBytes, h]

theorem State.fullFrame_eq_flatMap (s : State) :
    s.fullFrame = commandByteOf s s.cfg.writeCmd ::
      (List.range s.height.toNat).flatMap (fun y => BitVec.ofNat 8 (y + 1) :: rowBytes s y ++ [0x00])
        ++ [0x00] := by
  simp only [State.fullFrame, State.frameRows_eq_flatMap, State.row_eq_rowBytes, List.range_eq_range']
  rfl

/-- Settles O47: the frames are the model's three, whose lengths stand; without rows the full frame has
nothing between its ends, and an empty row has its number and trailer alone. -/
theorem frameLengths : Obligations.FrameLengths := by
  intro s t f
  refine ⟨fun h hf => ?_, fun h hf => ?_, fun n h hf => ?_⟩
  · rw [dclr_frame h hf, s.length_clearFrame]
  · rw [rfsh_frame h hf]
    refine ⟨s.length_fullFrame, ?_, fun h0 => ?_, fun h0 => ?_⟩
    · rw [s.length_fullFrame]
      ring
    · rw [State.fullFrame_eq_flatMap, h0]
      rfl
    · simp only [State.fullFrame_eq_flatMap, rowBytes_of_bpr_eq_zero h0, List.cons_append, List.nil_append]
  · rw [rfln_frame h hf, s.length_lineFrame]

/-! ## What stands at each offset of the frames (R61) -/

theorem State.getElem?_row_append (s : State) (y : Nat) {i : Nat} (hi : i < s.bpr) (tl : List Byte) :
    (s.row y ++ tl)[i]? = some (s.fb.byteAt y i) := by
  rw [List.getElem?_append_left (by simpa using hi)]
  simp [State.row_eq_map, hi]

theorem State.getElem?_row_append_bpr (s : State) (y k : Nat) (tl : List Byte) :
    (s.row y ++ tl)[s.bpr + k]? = tl[k]? := by
  rw [List.getElem?_append_right (by simp), s.length_row, Nat.add_sub_cancel_left]

theorem State.frameRows_add (s : State) (y m n : Nat) :
    s.frameRows y (m + n) = s.frameRows y m ++ s.frameRows (y + m) n := by
  simp only [State.frameRows_eq_flatMap, ← List.flatMap_append, List.range'_append_1]

/-- The command byte and the first `y` rows, each with its number and trailer. -/
def State.frameBefore (s : State) (y : Nat) : List Byte :=
  s.commandByte s.cfg.writeCmd :: s.frameRows 0 y

theorem State.length_frameBefore (s : State) (y : Nat) :
    (s.frameBefore y).length = 1 + y * (s.bpr + 2) := by
  rw [State.frameBefore, List.length_cons, s.length_frameRows, Nat.add_comm]

theorem State.fullFrame_split (s : State) {y : Nat} (hy : y < s.height.toNat) :
    ∃ tl, s.fullFrame = s.frameBefore y ++ lineNumber y :: (s.row y ++ 0x00 :: tl) := by
  obtain ⟨m, hm⟩ : ∃ m, s.height.toNat = y + (m + 1) := ⟨s.height.toNat - y - 1, by omega⟩
  refine ⟨s.frameRows (y + 1) m ++ [0x00], ?_⟩
  simp [State.fullFrame, State.frameBefore, hm, State.frameRows_add, State.frameRows]

theorem State.getElem?_fullFrame_row (s : State) {y : Nat} (hy : y < s.height.toNat) :
    ∃ tl, ∀ j, s.fullFrame[1 + y * (s.bpr + 2) + j]? = (lineNumber y :: (s.row y ++ 0x00 :: tl))[j]? := by
  obtain ⟨tl, h⟩ := s.fullFrame_split hy
  refine ⟨tl, fun j => ?_⟩
  rw [h, ← s.length_frameBefore, List.getElem?_append_right (Nat.le_add_right ..), Nat.add_sub_cancel_left]

theorem State.getElem?_fullFrame_last (s : State) :
    s.fullFrame[1 + s.height.toNat * (s.bpr + 2)]? = some 0x00 := by
  rw [← s.length_frameBefore]
  exact List.getElem?_concat_length

theorem State.getElem?_lineFrame (s : State) (n j : Nat) :
    (s.lineFrame n)[2 + j]? = (s.row n ++ [0x00, 0x00])[j]? := by
  rw [Nat.add_comm]
  rfl

/-- Settles O48: offsets in the full frame count from the number byte of their row, offsets in the line
frame from its first row byte. -/
theorem framesFieldByField : Obligations.FramesFieldByField := by
  intro s t f hf
  refine ⟨fun h => dclr_frame h hf, fun h => ?_, fun n h => ?_⟩
  · rw [rfsh_frame h hf]
    refine ⟨rfl, fun y hy => ?_, s.getElem?_fullFrame_last, s.length_fullFrame⟩
    obtain ⟨tl, hrow⟩ := s.getElem?_fullFrame_row hy
    have hbytes (j : Nat) : s.fullFrame[2 + y * (s.bpr + 2) + j]? = (s.row y ++ 0x00 :: tl)[j]? := by
      rw [show 2 + y * (s.bpr + 2) + j = 1 + y * (s.bpr + 2) + (j + 1) by omega, hrow,
        List.getElem?_cons_succ]
    refine ⟨hrow 0, fun i hi => ?_, ?_⟩
    · rw [hbytes, s.getElem?_row_append y hi]
    · exact (hbytes s.bpr).trans (s.getElem?_row_append_bpr y 0 _)
  · rw [rfln_frame h hf]
    refine ⟨rfl, rfl, fun i hi => ?_, ?_, ?_, s.length_lineFrame n.toNat⟩
    · rw [s.getElem?_lineFrame, s.getElem?_row_append _ hi]
    · exact (s.getElem?_lineFrame _ s.bpr).trans (s.getElem?_row_append_bpr n.toNat 0 _)
    · rw [show 3 + s.bpr = 2 + (s.bpr + 1) by omega, s.getElem?_lineFrame, s.getElem?_row_append_bpr]
      rfl

/-! ## A decoded texture carries the bytes of its asset (R66, R76) -/

theorem toNat_headerField (lo hi : Byte) : (headerField lo hi).toNat = lo.toNat + 256 * hi.toNat := by
  have := lo.isLt
  have := hi.isLt
  rw [headerField, BitVec.toNat_ofNat]
  omega

theorem littleEndian_headerField (lo hi : Byte) : littleEndian (headerField lo hi) = [lo, hi] := by
  have hlo : (headerField lo hi).setWidth 8 = lo := by
    refine BitVec.eq_of_toNat_eq ?_
    rw [BitVec.toNat_setWidth, toNat_headerField]
    omega
  have hhi : (headerField lo hi >>> 8).setWidth 8 = hi := by
    refine BitVec.eq_of_toNat_eq ?_
    rw [BitVec.toNat_setWidth, BitVec.toNat_ushiftRight, toNat_headerField, Nat.shiftRight_eq_div_pow]
    omega
  rw [littleEndian, hlo, hhi]

theorem flatten_payloadRows (len n : Nat) (bytes : List Byte) :
    (payloadRows len n bytes).flatten = bytes.take (n * len) := by
  induction n generalizing bytes with
  | zero => simp [payloadRows]
  | succ n ih => rw [payloadRows, List.flatten_cons, ih, Nat.succ_mul, Nat.add_comm, List.take_add]

theorem decodeTexture_ok_bytes {bytes : List Byte} {v : Value} (h : decodeTexture bytes = .ok v) :
    v.bytes = bytes.take
      (4 + ((bytes.getD 2 0).toNat + 256 * (bytes.getD 3 0).toNat)
        * (((bytes.getD 0 0).toNat + 256 * (bytes.getD 1 0).toNat + 7) / 8)) := by
  unfold decodeTexture at h
  split at h
  next b0 b1 b2 b3 body =>
    split at h <;> cases h
    simp [Value.bytes, littleEndian_headerField, flatten_payloadRows, toNat_headerField,
      textureRowLength, Nat.add_comm 4]
  next => cases h

/-! ## The value of an operation that succeeded (R70, R76) -/

section success
variable {i : Instr} {s t : State} {c : Completion} {v : Value}

theorem value_eq_of_trace {w : Value} {sent : Option Transmission} {tr : List Completion}
    (ht : t.trace = { sent := sent, result := .ok w } :: tr) (hc : t.trace.head? = some c)
    (hv : c.result = .ok v) : v = w := by
  rw [ht] at hc
  cases hc
  cases hv
  rfl

theorem State.failed_not_ok {e : ErrorKind} (hc : (s.failed e).trace.head? = some c) :
    c.result ≠ .ok v := by
  cases hc
  simp

/-- A validation that ended in success went on to what it guards. -/
theorem eq_of_validation_ok {P : Prop} [Decidable P] {a : State} {e : ErrorKind}
    (h : (if P then a else s.failed e) = t) (hc : t.trace.head? = some c) (hv : c.result = .ok v) :
    a = t := by
  split at h
  · exact h
  · cases h
    exact absurd hv (State.failed_not_ok hc)

theorem exec_idempotent_ok (hi : Idempotent i = true) (h : exec i s = .next t)
    (hc : t.trace.head? = some c) (hv : c.result = .ok v) : v = .nothing := by
  cases exec_draws s hi with
  | fails e he =>
    cases (he s.fb s.trace).symm.trans h
    exact absurd hv (State.failed_not_ok hc)
  | paints f _ he =>
    cases (he s.fb s.trace).symm.trans h
    exact value_eq_of_trace rfl hc hv

theorem exec_transmits_ok (hi : Transmits i = true) (h : exec i s = .next t)
    (hc : t.trace.head? = some c) (hv : c.result = .ok v) : v = .nothing := by
  rcases exec_next h with ⟨hi', -⟩ | ⟨-, ⟨e, rfl, -⟩ | ⟨f, rfl, -⟩⟩
  · simp [hi] at hi'
  · exact absurd hv (State.failed_not_ok hc)
  · cases hc
    dsimp only at hv
    split at hv <;> cases hv
    rfl

/-- Only GETPX, ROWRD and TEXDEC have a success value. -/
theorem exec_ok_eq_nothing (h : exec i s = .next t) (hc : t.trace.head? = some c)
    (hv : c.result = .ok v) (hg : ∀ x y, i ≠ .getpx x y) (hr : ∀ y, i ≠ .rowrd y)
    (ht : ∀ plen bytes, i ≠ .texdec plen bytes) : v = .nothing := by
  cases i with
  | getpx x y => exact absurd rfl (hg x y)
  | rowrd y => exact absurd rfl (hr y)
  | texdec plen bytes => exact absurd rfl (ht plen bytes)
  | setpx | fbclr | line | hline | vline | rect | frect | texblt | putch =>
    exact exec_idempotent_ok (by rfl) h hc hv
  | dclr | rfsh | rfln => exact exec_transmits_ok (by rfl) h hc hv
  | prset =>
    cases h
    exact value_eq_of_trace rfl hc hv
  | prch =>
    have hset := eq_of_validation_ok (Host.Outcome.next.inj h) hc hv
    obtain rfl := eq_of_validation_ok hset hc hv
    exact value_eq_of_trace rfl hc hv

theorem exec_getpx_ok {x y : U16} (h : exec (.getpx x y) s = .next t) (hc : t.trace.head? = some c)
    (hv : c.result = .ok v) : v = .bit (s.fb.pixel x.toNat y.toNat) := by
  obtain rfl := eq_of_validation_ok (Host.Outcome.next.inj h) hc hv
  exact value_eq_of_trace rfl hc hv

theorem exec_rowrd_ok {y : U16} (h : exec (.rowrd y) s = .next t) (hc : t.trace.head? = some c)
    (hv : c.result = .ok v) : v = .row (rowBytes s y.toNat) := by
  obtain rfl := eq_of_validation_ok (Host.Outcome.next.inj h) hc hv
  rw [← State.row_eq_rowBytes]
  exact value_eq_of_trace rfl hc hv

theorem exec_texdec_ok {plen : BitVec 32} {bytes : List Byte} (h : exec (.texdec plen bytes) s = .next t)
    (hc : t.trace.head? = some c) (hv : c.result = .ok v) : decodeTexture bytes = .ok v := by
  obtain rfl := eq_of_validation_ok (Host.Outcome.next.inj h) hc hv
  cases hc
  exact hv

end success

/-- Settles O53: an error's response is its status by definition; a success has the value of its operation. -/
theorem responseBytes : Obligations.ResponseBytes := by
  intro i s t c h hc
  refine ⟨congrArg Result.bytes, congrArg Result.bytes, congrArg Result.bytes, congrArg Result.bytes,
    congrArg Result.bytes, fun v hv => ?_⟩
  rw [hv]
  refine ⟨?_, ?_, ?_, fun hg hr ht => ?_⟩
  · rintro x y rfl
    rw [exec_getpx_ok h hc hv]
    rfl
  · rintro y rfl
    rw [exec_rowrd_ok h hc hv]
    rfl
  · rintro plen bytes rfl
    exact congrArg (0x00 :: ·) (decodeTexture_ok_bytes (exec_texdec_ok h hc hv))
  · rw [exec_ok_eq_nothing h hc hv hg hr ht]
    rfl

end Sys2Proof.Machine

/-! # The framebuffer operations: GETPX, SETPX, FBCLR, ROWRD (40_framebuffer.md) -/

namespace Sys2Proof.Machine

/-- An operation whose payload has the announced length is encoded by its descriptor (30_encoding.md R71). -/
theorem encodedAs_descriptor {i : Instr} (h : i.WellFormed) : EncodedAs i i.descriptor :=
  decode_encode_append h

/-! ## The operations in and out of bounds -/

/-- A validation that fails ends the operation with its error, whatever it guards. -/
theorem failsWith_of_not {i : Instr} {s a : State} {P : Prop} [Decidable P] {e : ErrorKind}
    (h : exec i s = .next (if P then a else s.failed e)) (hP : ¬ P) : FailsWith i s e :=
  h.trans (congrArg _ (if_neg hP))

section bounds
variable {s : State} {x y : U16}

theorem exec_getpx_of_inBounds (h : s.InBounds x y) :
    exec (.getpx x y) s = .next (s.answering (.ok (.bit (s.fb.pixel x.toNat y.toNat)))) :=
  congrArg Host.Outcome.next (if_pos h)

theorem exec_setpx_of_inBounds (c : Bool) (h : s.InBounds x y) :
    exec (.setpx x y c) s = .next (s.redrawn (s.fb.setBit x.toNat y.toNat c)) :=
  congrArg Host.Outcome.next (if_pos h)

theorem exec_rowrd_of_lt (h : y.toNat < s.height.toNat) :
    exec (.rowrd y) s = .next (s.answering (.ok (.row (s.row y.toNat)))) :=
  congrArg Host.Outcome.next (if_pos h)

end bounds

/-! ## SETPX: one pixel settled (R91) -/

@[simp] theorem State.redrawn_fb (s : State) (m : Memory) : (s.redrawn m).fb = m := rfl

section setBit
variable {m : Memory} {x y : Nat} {c : Bool}

theorem Memory.pixel_setBit_self (hm : m.wf = true) (hx : x < 65536) :
    (m.setBit x y c).pixel x y = c :=
  (Memory.pixel_setBit hm hx hx).trans (if_pos ⟨rfl, rfl⟩)

theorem Memory.painted_setBit (hm : m.wf = true) (hx : x < 65536) :
    Painted m (m.setBit x y c) (fun px py => px = x ∧ py = y) c := fun _ _ hx' =>
  ⟨fun hp => (Memory.pixel_setBit hm hx hx').trans (if_pos hp),
    fun hp => (Memory.pixel_setBit hm hx hx').trans (if_neg hp)⟩

/-- A pixel set to the value it has changes nothing, the canonical form included. -/
theorem Memory.setBit_of_pixel_eq (hm : m.wf = true) (hx : x < 65536) (h : m.pixel x y = c) :
    m.setBit x y c = m := by
  refine Memory.ext_of_pixel (Memory.wf_setBit hm) hm fun x' y' hx' => ?_
  rw [Memory.pixel_setBit hm hx hx']
  split
  next hp => rw [hp.1, hp.2, h]
  next => rfl

end setBit

/-- Settles O22: SETPX is SetBit, which settles one pixel; its validation then holds for GETPX as well. -/
theorem setpxWritesOnePixel : Obligations.SetpxWritesOnePixel := by
  intro s x y c hwf
  refine ⟨encodedAs_descriptor rfl, fun hb => ?_, failsWith_of_not rfl⟩
  have hx : x.toNat < 65536 := x.isLt
  have hset := exec_setpx_of_inBounds c hb
  refine ⟨⟨_, hset, Memory.wf_setBit hwf, Memory.painted_setBit hwf hx⟩, ⟨_, hset, ?_⟩, fun hp => ?_⟩
  · rw [exec_getpx_of_inBounds (s := s.redrawn _) hb, State.redrawn_fb, Memory.pixel_setBit_self hwf hx]
  · rw [hset, Memory.setBit_of_pixel_eq hwf hx hp]

/-! ## FBCLR: every byte of the panel filled (R92) -/

/-- A row fits the stride of its addresses, whatever WIDTH is (00_scope.md R9). -/
theorem State.bpr_le (s : State) : s.bpr ≤ 8192 := by
  have := s.width.isLt
  unfold State.bpr
  omega

/-- Filling every row of the panel with the reset value leaves no cell (20_memory.md R40). -/
theorem Memory.clearRows_blank_eq_nil {m : Memory} {h bpr : Nat} (hm : m.wf = true)
    (hin : m.within h bpr = true) (hb : bpr ≤ 8192) : m.clearRows bpr Memory.blank 0 h = [] := by
  refine Memory.ext_of_byteAt (Memory.wf_clearRows hm) rfl fun y i hi => ?_
  rw [Memory.byteAt_clearRows hm hb hi]
  split
  next => rfl
  next ho => exact Memory.byteAt_of_outside hin hi (by omega)

/-- Settles O23: FBCLR is its loop over the rows of the panel; under colour 1 it fills with the reset value. -/
theorem fbclrFillsTheFramebuffer : Obligations.FbclrFillsTheFramebuffer := by
  intro s c hwf
  refine ⟨encodedAs_descriptor rfl, _, rfl, Memory.wf_clearRows hwf, fun y i hi => ?_, ?_⟩
  · rw [Memory.byteAt_clearRows hwf s.bpr_le hi]
    simp only [Nat.zero_le, true_and, Nat.zero_add, fillByte]
  · rintro hin rfl
    exact Memory.clearRows_blank_eq_nil hwf hin s.bpr_le

/-! ## GETPX and ROWRD: what is read (R90, R93) -/

theorem getLsbD_eq_shift_and_one (b : Byte) (k : Nat) : b.getLsbD k = (b >>> k &&& 1 == 1) := by
  have h : b >>> k &&& 1 = (BitVec.ofBool (b.getLsbD k)).setWidth 8 := by
    simpa using BitVec.and_one_eq_setWidth_ofBool_getLsbD (x := b >>> k)
  rw [h]
  cases b.getLsbD k <;> rfl

/-- Settles O21: the pixel is a bit of its byte. -/
theorem getpxReadsThePixel : Obligations.GetpxReadsThePixel := by
  intro s x y
  refine ⟨encodedAs_descriptor rfl, fun hb => ?_, failsWith_of_not rfl⟩
  rw [exec_getpx_of_inBounds hb, Memory.pixel, getLsbD_eq_shift_and_one]

/-- Settles O24: the row as the model reads it is its bytes in increasing index. -/
theorem rowrdReturnsTheRow : Obligations.RowrdReturnsTheRow := by
  intro s y
  refine ⟨encodedAs_descriptor rfl, fun hy => ?_, failsWith_of_not rfl⟩
  rw [exec_rowrd_of_lt hy, State.row_eq_rowBytes]

end Sys2Proof.Machine

/-! # Lines and runs: LINE, HLINE, VLINE (41_raster_runs.md) -/

namespace Sys2Proof.Machine

/-! ## The minor coordinate of a line (R103) -/

section offset
variable {dx dy : Nat}

/-- `lineOffset dx dy k` minor steps after `k` pixels keep the loop's error term, which starts at `dx / 2`, in
`0 ≤ err < dx` (R105). -/
theorem lineOffset_error_range (hdx : 0 < dx) (dy k : Nat) :
    k * dy ≤ dx / 2 + lineOffset dx dy k * dx ∧ dx / 2 + lineOffset dx dy k * dx < k * dy + dx := by
  have hdiv := Nat.div_add_mod' (k * dy + (dx - 1) / 2) dx
  have hmod := Nat.mod_lt (k * dy + (dx - 1) / 2) hdx
  unfold lineOffset
  omega

theorem lineOffset_zero (dx dy : Nat) : lineOffset dx dy 0 = 0 := by
  unfold lineOffset
  rcases Nat.eq_zero_or_pos dx with rfl | hdx
  · exact Nat.div_zero _
  · exact Nat.div_eq_of_lt (by omega)

theorem lineOffset_of_horizontal (dx k : Nat) : lineOffset dx 0 k = 0 := by
  simpa only [lineOffset, Nat.mul_zero] using lineOffset_zero dx 0

theorem lineOffset_last (hd : dy ≤ dx) : lineOffset dx dy dx = dy := by
  unfold lineOffset
  rcases Nat.eq_zero_or_pos dx with rfl | hdx
  · rw [Nat.div_zero, Nat.le_zero.mp hd]
  · rw [Nat.mul_add_div hdx, Nat.div_eq_of_lt (by omega), Nat.add_zero]

theorem lineOffset_of_diagonal (hdx : 0 < dx) (k : Nat) : lineOffset dx dx k = k := by
  unfold lineOffset
  rw [Nat.mul_comm, Nat.mul_add_div hdx, Nat.div_eq_of_lt (by omega), Nat.add_zero]

theorem lineOffset_succ (hdx : 0 < dx) (hd : dy ≤ dx) (k : Nat) :
    lineOffset dx dy k ≤ lineOffset dx dy (k + 1)
      ∧ lineOffset dx dy (k + 1) ≤ lineOffset dx dy k + 1 := by
  unfold lineOffset
  rw [Nat.succ_mul]
  refine ⟨Nat.div_le_div_right (by omega), ?_⟩
  calc (k * dy + dy + (dx - 1) / 2) / dx
      ≤ (k * dy + (dx - 1) / 2 + dx) / dx := Nat.div_le_div_right (by omega)
    _ = (k * dy + (dx - 1) / 2) / dx + 1 := Nat.add_div_right _ hdx

end offset

/-- The minor coordinate `o` away from `y1`, towards `y2`. -/
def minorCoord (y1 y2 o : Nat) : Nat := if y1 < y2 then y1 + o else y1 - o

section minor
variable {y1 y2 o o' : Nat}

@[simp] theorem minorCoord_zero (y1 y2 : Nat) : minorCoord y1 y2 0 = y1 := ite_self _

@[simp] theorem minorCoord_absDiff (y1 y2 : Nat) : minorCoord y1 y2 (absDiff y2 y1) = y2 := by
  unfold minorCoord absDiff
  split <;> omega

theorem absDiff_minorCoord_le_one (hlo : o ≤ o') (hhi : o' ≤ o + 1) :
    absDiff (minorCoord y1 y2 o') (minorCoord y1 y2 o) ≤ 1 := by
  unfold minorCoord absDiff
  split <;> omega

theorem absDiff_minorCoord_succ (ho : o < absDiff y2 y1) :
    absDiff (minorCoord y1 y2 (o + 1)) (minorCoord y1 y2 o) = 1 := by
  unfold minorCoord absDiff at *
  split <;> omega

end minor

/-! ## The loop computes the rounded line -/

theorem getElem?_majorLine {x1 y1 x2 y2 k : Nat} (hx : x1 < x2) (hd : absDiff y2 y1 ≤ x2 - x1)
    (hk : k < x2 - x1 + 1) :
    (majorLine x1 y1 x2 y2)[k]? =
      some (x1 + k, minorCoord y1 y2 (lineOffset (x2 - x1) (absDiff y2 y1) k)) := by
  have ⟨hlo, hhi⟩ := lineOffset_error_range (dx := x2 - x1) (by omega) (absDiff y2 y1) k
  zify at hlo hhi
  rw [majorLine, bresenham_getElem (j := lineOffset (x2 - x1) (absDiff y2 y1) k) (hk := hk)
    (hdy := by omega) (hle := by omega) (herr := by omega) (hlt := by omega) (h0 := by omega)
    (h1 := by omega), minorCoord]
  split <;> congr 2 <;> omega

theorem majorLine_eq_map {x1 y1 x2 y2 : Nat} (hx : x1 ≤ x2) (hd : absDiff y2 y1 ≤ x2 - x1) :
    majorLine x1 y1 x2 y2 = (List.range (x2 - x1 + 1)).map fun k =>
      (x1 + k, minorCoord y1 y2 (lineOffset (x2 - x1) (absDiff y2 y1) k)) := by
  rcases Nat.eq_or_lt_of_le hx with rfl | hlt
  · simp [majorLine, bresenham, lineOffset_zero]
  · refine List.ext_getElem (by simp [majorLine]) fun k hk _ => ?_
    rw [majorLine, length_bresenham] at hk
    rw [List.getElem_eq_iff, getElem?_majorLine hlt hd hk, List.getElem_map, List.getElem_range]

theorem linePixels_eq_map {x1 y1 x2 y2 : Nat} (hx : x1 ≤ x2) (hd : absDiff y2 y1 ≤ x2 - x1) :
    linePixels x1 y1 x2 y2 = (List.range (x2 - x1 + 1)).map fun k =>
      (x1 + k, minorCoord y1 y2 (lineOffset (x2 - x1) (absDiff y2 y1) k)) := by
  have hflat : ¬ absDiff y2 y1 > absDiff x2 x1 := by unfold absDiff at *; omega
  rw [linePixels, if_neg hflat, orderedLine, if_neg (by omega), majorLine_eq_map hx hd]

/-- Only when the major coordinates agree are both orders left as they are, and then so do the minor ones. -/
theorem orderedLine_comm {x1 y1 x2 y2 : Nat} (hd : absDiff y2 y1 ≤ absDiff x2 x1) :
    orderedLine x2 y2 x1 y1 = orderedLine x1 y1 x2 y2 := by
  unfold absDiff at hd
  unfold orderedLine
  rcases Nat.lt_trichotomy x1 x2 with h | rfl | h
  · rw [if_pos h, if_neg (by omega)]
  · obtain rfl : y1 = y2 := by omega
    rfl
  · rw [if_neg (by omega), if_pos h]

theorem linePixels_comm (x1 y1 x2 y2 : Nat) : linePixels x2 y2 x1 y1 = linePixels x1 y1 x2 y2 := by
  unfold linePixels
  rw [absDiff_comm y1, absDiff_comm x1]
  split <;> rw [orderedLine_comm (by omega)]

theorem linePixels_mirror {x1 y1 x2 y2 : Nat} (h : absDiff y2 y1 < absDiff x2 x1) :
    linePixels y1 x1 y2 x2 = (linePixels x1 y1 x2 y2).map Prod.swap := by
  rw [linePixels, if_pos h, linePixels, if_neg (by omega)]

/-- Settles O26: the closed form of the loop, and the two swaps around it. -/
theorem linePixelsAreTheRoundedLine : Obligations.LinePixelsAreTheRoundedLine := fun x1 y1 x2 y2 =>
  ⟨linePixels_eq_map, linePixels_comm x1 y1 x2 y2, linePixels_mirror⟩

/-! ## The footprint of a line (R104) -/

/-- Every line is one from left to right with its x coordinate the major one, up to the order of its endpoints
and a mirroring: what the two swaps of R103 leave to prove. -/
theorem line_cases {P : Nat → Nat → Nat → Nat → Prop}
    (flat : ∀ x1 y1 x2 y2, x1 ≤ x2 → absDiff y2 y1 ≤ x2 - x1 → P x1 y1 x2 y2)
    (reversed : ∀ x1 y1 x2 y2, P x1 y1 x2 y2 → P x2 y2 x1 y1)
    (mirrored : ∀ x1 y1 x2 y2, absDiff y2 y1 < absDiff x2 x1 → P x1 y1 x2 y2 → P y1 x1 y2 x2)
    (x1 y1 x2 y2 : Nat) : P x1 y1 x2 y2 := by
  have hflat : ∀ x1 y1 x2 y2, absDiff y2 y1 ≤ absDiff x2 x1 → P x1 y1 x2 y2 := by
    intro x1 y1 x2 y2 hd
    unfold absDiff at hd
    rcases Nat.le_total x1 x2 with hx | hx
    · exact flat _ _ _ _ hx (by unfold absDiff; omega)
    · exact reversed _ _ _ _ (flat _ _ _ _ hx (by unfold absDiff; omega))
  rcases le_or_gt (absDiff y2 y1) (absDiff x2 x1) with hd | hd
  · exact hflat _ _ _ _ hd
  · exact mirrored _ _ _ _ hd (hflat _ _ _ _ hd.le)

theorem length_linePixels (x1 y1 x2 y2 : Nat) :
    (linePixels x1 y1 x2 y2).length = max (absDiff x2 x1) (absDiff y2 y1) + 1 := by
  induction x1, y1, x2, y2 using line_cases with
  | flat x1 y1 x2 y2 hx hd =>
    simp only [linePixels_eq_map hx hd, List.length_map, List.length_range]
    unfold absDiff at *
    omega
  | reversed x1 y1 x2 y2 ih => rw [linePixels_comm, ih, absDiff_comm x1, absDiff_comm y1]
  | mirrored x1 y1 x2 y2 hd ih => rw [linePixels_mirror hd, List.length_map, ih, max_comm]

theorem endpoints_mem_linePixels (x1 y1 x2 y2 : Nat) :
    (x1, y1) ∈ linePixels x1 y1 x2 y2 ∧ (x2, y2) ∈ linePixels x1 y1 x2 y2 := by
  induction x1, y1, x2, y2 using line_cases with
  | flat x1 y1 x2 y2 hx hd =>
    rw [linePixels_eq_map hx hd]
    refine ⟨List.mem_map.mpr ⟨0, by simp, ?_⟩, List.mem_map.mpr ⟨x2 - x1, by simp, ?_⟩⟩
    · rw [lineOffset_zero, minorCoord_zero, Nat.add_zero]
    · rw [lineOffset_last hd, minorCoord_absDiff, Nat.add_sub_cancel' hx]
  | reversed x1 y1 x2 y2 ih => rw [linePixels_comm]; exact ih.symm
  | mirrored x1 y1 x2 y2 hd ih =>
    rw [linePixels_mirror hd]
    exact ⟨List.mem_map_of_mem ih.1, List.mem_map_of_mem ih.2⟩

/-- Consecutive pixels of a line with its x coordinate the major one: one step right, at most one up or down. -/
theorem linePixels_step_of_flat {x1 y1 x2 y2 k : Nat} {p q : Nat × Nat} (hx : x1 ≤ x2)
    (hd : absDiff y2 y1 ≤ x2 - x1) (hp : (linePixels x1 y1 x2 y2)[k]? = some p)
    (hq : (linePixels x1 y1 x2 y2)[k + 1]? = some q) :
    (q.1 = p.1 + 1 ∧ absDiff q.2 p.2 ≤ 1) ∧ (absDiff y2 y1 = absDiff x2 x1 → absDiff q.2 p.2 = 1) := by
  rw [linePixels_eq_map hx hd, List.getElem?_map, Option.map_eq_some_iff] at hp hq
  obtain ⟨_, hi, rfl⟩ := hp
  obtain ⟨_, hj, rfl⟩ := hq
  obtain ⟨_, rfl⟩ := List.getElem?_eq_some_iff.mp hi
  obtain ⟨hk, rfl⟩ := List.getElem?_eq_some_iff.mp hj
  simp only [List.length_range, List.getElem_range] at hk ⊢
  refine ⟨⟨by omega, ?_⟩, fun hdiag => ?_⟩
  · have ⟨hlo, hhi⟩ := lineOffset_succ (by omega) hd k
    exact absDiff_minorCoord_le_one hlo hhi
  · have hdx : absDiff y2 y1 = x2 - x1 := by rw [hdiag]; unfold absDiff; omega
    rw [hdx, lineOffset_of_diagonal (by omega), lineOffset_of_diagonal (by omega)]
    exact absDiff_minorCoord_succ (by omega)

theorem linePixels_step (x1 y1 x2 y2 : Nat) : ∀ (k : Nat) (p q : Nat × Nat),
    (linePixels x1 y1 x2 y2)[k]? = some p → (linePixels x1 y1 x2 y2)[k + 1]? = some q →
      (if absDiff y2 y1 > absDiff x2 x1 then q.2 = p.2 + 1 ∧ absDiff q.1 p.1 ≤ 1
        else q.1 = p.1 + 1 ∧ absDiff q.2 p.2 ≤ 1)
      ∧ (absDiff y2 y1 = absDiff x2 x1 → absDiff q.2 p.2 = 1) := by
  induction x1, y1, x2, y2 using line_cases with
  | flat x1 y1 x2 y2 hx hd =>
    intro k p q hp hq
    rw [if_neg (by unfold absDiff at *; omega)]
    exact linePixels_step_of_flat hx hd hp hq
  | reversed x1 y1 x2 y2 ih => rwa [linePixels_comm, absDiff_comm x1, absDiff_comm y1]
  | mirrored x1 y1 x2 y2 hd ih =>
    intro k p q hp hq
    rw [linePixels_mirror hd, List.getElem?_map, Option.map_eq_some_iff] at hp hq
    obtain ⟨p, hp, rfl⟩ := hp
    obtain ⟨q, hq, rfl⟩ := hq
    obtain ⟨hstep, -⟩ := ih k p q hp hq
    rw [if_neg hd.not_gt] at hstep
    rw [if_pos hd]
    exact ⟨hstep, fun h => absurd h hd.ne'⟩

theorem mem_linePixels_horizontal (x1 x2 y1 x y : Nat) :
    (x, y) ∈ linePixels x1 y1 x2 y1 ↔ y = y1 ∧ min x1 x2 ≤ x ∧ x ≤ max x1 x2 := by
  wlog hx : x1 ≤ x2 generalizing x1 x2 with hswap
  · rw [linePixels_comm, hswap x2 x1 (by omega), min_comm, max_comm]
  have h0 : absDiff y1 y1 = 0 := by simp [absDiff]
  simp only [linePixels_eq_map hx (by omega : absDiff y1 y1 ≤ x2 - x1), h0, lineOffset_of_horizontal,
    minorCoord_zero, List.mem_map, List.mem_range, Prod.mk.injEq]
  constructor
  · rintro ⟨k, hk, rfl, rfl⟩
    omega
  · rintro ⟨rfl, hlo, hhi⟩
    exact ⟨x - x1, by omega, by omega, rfl⟩

theorem mem_linePixels_vertical (x1 y1 y2 x y : Nat) :
    (x, y) ∈ linePixels x1 y1 x1 y2 ↔ x = x1 ∧ min y1 y2 ≤ y ∧ y ≤ max y1 y2 := by
  by_cases hy : y1 = y2
  · subst hy
    rw [mem_linePixels_horizontal]
    omega
  · rw [linePixels_mirror (by unfold absDiff; omega), ← mem_linePixels_horizontal]
    exact List.mem_map_swap ..

/-- Settles O27: the properties of the footprint, each proved above; the one point of a line between equal
endpoints is one turn of the loop. -/
theorem lineFootprintProperties : Obligations.LineFootprintProperties := by
  intro x1 y1 x2 y2
  obtain ⟨hfirst, hlast⟩ := endpoints_mem_linePixels x1 y1 x2 y2
  refine ⟨length_linePixels x1 y1 x2 y2, linePixels_step x1 y1 x2 y2, hfirst, hlast,
    linePixels_comm x2 y2 x1 y1, ?_, mem_linePixels_horizontal x1 x2 y1, mem_linePixels_vertical x1 y1 y2⟩
  simp [linePixels, orderedLine, majorLine, bresenham]

/-! ## Footprints -/

section footprint
variable {m m' m'' : Memory} {P Q : Nat → Nat → Prop} {c : Bool}

theorem painted_of_pixel_eq_ite [∀ x y, Decidable (P x y)]
    (h : ∀ x y, x < 65536 → m'.pixel x y = if P x y then c else m.pixel x y) : Painted m m' P c :=
  fun x y hx => ⟨fun hP => (h x y hx).trans (if_pos hP), fun hP => (h x y hx).trans (if_neg hP)⟩

/-- A footprint and a colour settle the canonical framebuffer, however it was painted. -/
theorem Painted.unique (h' : Painted m m' P c) (h'' : Painted m m'' Q c) (hPQ : ∀ x y, P x y ↔ Q x y)
    (hwf' : m'.wf = true) (hwf'' : m''.wf = true) : m' = m'' := by
  refine Memory.ext_of_pixel hwf' hwf'' fun x y hx => ?_
  obtain ⟨hin', hout'⟩ := h' x y hx
  obtain ⟨hin'', hout''⟩ := h'' x y hx
  by_cases hP : P x y
  · rw [hin' hP, hin'' ((hPQ x y).mp hP)]
  · rw [hout' hP, hout'' (mt (hPQ x y).mpr hP)]

theorem Memory.painted_drawPixels {ps : List (Nat × Nat)} (hm : m.wf = true)
    (hps : ∀ p ∈ ps, p.1 < 65536) :
    Painted m (m.drawPixels ps c) (fun x y => (x, y) ∈ ps) c :=
  painted_of_pixel_eq_ite fun _ _ hx => Memory.pixel_drawPixels hm hps hx

theorem Memory.painted_hRun {x y len : Nat} (hm : m.wf = true) (hx : x + len ≤ 65536) :
    Painted m (m.hRun x y len c) (fun px py => py = y ∧ x ≤ px ∧ px < x + len) c :=
  painted_of_pixel_eq_ite fun _ _ hx' => Memory.pixel_hRun hm hx hx'

theorem Memory.painted_vRun {x y h : Nat} (hm : m.wf = true) (hx : x < 65536) :
    Painted m (m.vRun x y h c) (fun px py => px = x ∧ y ≤ py ∧ py < y + h) c :=
  painted_of_pixel_eq_ite fun _ _ hx' => Memory.pixel_vRun hm hx hx'

end footprint

/-- A validation that holds lets the drawing it guards through. -/
theorem exec_drawn_of_valid {i : Instr} {s b : State} {m : Memory} {V : Prop} [Decidable V]
    (h : exec i s = .next (if V then s.drawn m else b)) (hV : V) : exec i s = .next (s.redrawn m) :=
  h.trans (congrArg _ (if_pos hV))

/-! ## LINE (R103) -/

/-- Settles O25: LINE sets the pixels of the loop, none of which passes the greater endpoint. -/
theorem linePaintsBresenhamPixels : Obligations.LinePaintsBresenhamPixels := by
  intro s x1 y1 x2 y2 c hwf
  refine ⟨encodedAs_descriptor rfl, fun hb => ?_, failsWith_of_not rfl⟩
  have hin : ∀ p ∈ linePixels x1.toNat y1.toNat x2.toNat y2.toNat,
      p.1 < s.width.toNat ∧ p.2 < s.height.toNat := by
    intro p hp
    have ⟨hx, hy⟩ := linePixels_mem_le hp
    omega
  refine ⟨⟨_, exec_drawn_of_valid rfl hb, Memory.wf_drawPixels hwf, ?_⟩, hin⟩
  exact Memory.painted_drawPixels hwf fun p hp => (hin p hp).1.trans s.width.isLt

/-! ## HLINE and VLINE: a run as a sequence of SETPX (R107 to R112) -/

/-- A sequence of SETPX in bounds completes and leaves the framebuffer its pixels leave. -/
theorem execAll_setpx {ι : Type} {l : List ι} {f g : ι → U16} {s : State} (c : Bool)
    (h : ∀ k ∈ l, s.InBounds (f k) (g k)) :
    ∃ u, execAll (l.map fun k => .setpx (f k) (g k) c) s = .next u
      ∧ u.fb = s.fb.drawPixels (l.map fun k => ((f k).toNat, (g k).toNat)) c := by
  induction l generalizing s with
  | nil => exact ⟨s, rfl, rfl⟩
  | cons k l ih =>
    obtain ⟨hk, hl⟩ := List.forall_mem_cons.mp h
    obtain ⟨u, hu, hfb⟩ := ih (s := s.redrawn (s.fb.setBit (f k).toNat (g k).toNat c)) hl
    refine ⟨u, ?_, hfb⟩
    rw [List.map_cons, execAll, exec_setpx_of_inBounds c hk]
    exact hu

/-- A drawing of exactly the pixels of a sequence of SETPX in bounds paints them and leaves the framebuffer the
sequence leaves. -/
theorem paints_as_execAll_setpx {ι : Type} {l : List ι} {f g : ι → U16} {i : Instr} {s : State}
    {m : Memory} {c : Bool} {P : Nat → Nat → Prop} (hexec : exec i s = .next (s.redrawn m))
    (hwf : s.fb.wf = true) (hm : m.wf = true) (hP : Painted s.fb m P c) (hin : ∀ k ∈ l, s.InBounds (f k) (g k))
    (hmem : ∀ x y, (x, y) ∈ l.map (fun k => ((f k).toNat, (g k).toNat)) ↔ P x y) :
    Paints i s P c ∧ ∃ t u, exec i s = .next t
      ∧ execAll (l.map fun k => .setpx (f k) (g k) c) s = .next u ∧ u.fb = t.fb := by
  obtain ⟨u, hu, hfb⟩ := execAll_setpx c hin
  have hlt : ∀ p ∈ l.map (fun k => ((f k).toNat, (g k).toNat)), p.1 < 65536 :=
    List.forall_mem_map.mpr fun k _ => (f k).isLt
  have hpixels := (Memory.painted_drawPixels hwf hlt).unique hP hmem (Memory.wf_drawPixels hwf) hm
  exact ⟨⟨m, hexec, hm, hP⟩, s.redrawn m, u, hexec, hu, hfb.trans hpixels⟩

section coordinates
variable {a w : U16} {n : Nat}

theorem toNat_ofNat_add {k : Nat} (h : a.toNat + n ≤ w.toNat) (hk : k < n) :
    (BitVec.ofNat 16 (a.toNat + k)).toNat = a.toNat + k := by
  have := w.isLt
  rw [BitVec.toNat_ofNat]
  exact Nat.mod_eq_of_lt (by omega)

theorem toNat_ofNat_add_lt {k : Nat} (h : a.toNat + n ≤ w.toNat) (hk : k < n) :
    (BitVec.ofNat 16 (a.toNat + k)).toNat < w.toNat := by
  rw [toNat_ofNat_add h hk]
  omega

/-- The `n` coordinates from `a` on, none of which wraps around when the last one is at most a coordinate. -/
theorem exists_toNat_ofNat_add_eq_iff {z : Nat} (h : a.toNat + n ≤ w.toNat) :
    (∃ k < n, (BitVec.ofNat 16 (a.toNat + k)).toNat = z) ↔ a.toNat ≤ z ∧ z < a.toNat + n := by
  constructor
  · rintro ⟨k, hk, rfl⟩
    rw [toNat_ofNat_add h hk]
    omega
  · rintro ⟨hlo, hhi⟩
    exact ⟨z - a.toNat, by omega, by rw [toNat_ofNat_add h (by omega)]; omega⟩

end coordinates

/-- Settles O28: HRun paints its run, and so do the SETPX of its pixels. -/
theorem hlinePaintsTheRun : Obligations.HlinePaintsTheRun := by
  intro s x y len c hwf
  refine ⟨encodedAs_descriptor rfl, fun hb => ?_, failsWith_of_not rfl⟩
  have ⟨⟨_, hy⟩, hlen⟩ := hb
  refine paints_as_execAll_setpx (exec_drawn_of_valid rfl hb) hwf (Memory.wf_hRun hwf)
    (Memory.painted_hRun hwf (hlen.trans s.width.isLt.le))
    (fun k hk => ⟨toNat_ofNat_add_lt hlen (List.mem_range.mp hk), hy⟩) fun px py => ?_
  simp only [List.mem_map, List.mem_range, Prod.mk.injEq, ← and_assoc, exists_and_right]
  rw [exists_toNat_ofNat_add_eq_iff hlen, and_comm, eq_comm, and_assoc]

/-- Settles O29: VRun paints its column, and so do the SETPX of its pixels. -/
theorem vlinePaintsTheColumn : Obligations.VlinePaintsTheColumn := by
  intro s x y h c hwf
  refine ⟨encodedAs_descriptor rfl, fun hb => ?_, failsWith_of_not rfl⟩
  have ⟨⟨hx, _⟩, hh⟩ := hb
  refine paints_as_execAll_setpx (exec_drawn_of_valid rfl hb) hwf (Memory.wf_vRun hwf)
    (Memory.painted_vRun hwf x.isLt)
    (fun k hk => ⟨hx, toNat_ofNat_add_lt hh (List.mem_range.mp hk)⟩) fun px py => ?_
  simp only [List.mem_map, List.mem_range, Prod.mk.injEq, and_left_comm (a := _ < _), exists_and_left]
  rw [exists_toNat_ofNat_add_eq_iff hh, eq_comm]

end Sys2Proof.Machine

/-! # The shapes: RECT, FRECT, TEXBLT (42_raster_shapes.md) -/

namespace Sys2Proof.Machine

/-! ## Footprints one after another -/

section footprint
variable {m m' m'' : Memory} {P Q : Nat → Nat → Prop} {c : Bool}

/-- Two paintings in one colour paint both footprints (42_raster_shapes.md R121). -/
theorem Painted.andThen (hP : Painted m m' P c) (hQ : Painted m' m'' Q c) :
    Painted m m'' (fun x y => P x y ∨ Q x y) c := by
  intro x y hx
  obtain ⟨hinP, houtP⟩ := hP x y hx
  obtain ⟨hinQ, houtQ⟩ := hQ x y hx
  by_cases hq : Q x y
  · exact ⟨fun _ => hinQ hq, fun hn => absurd (.inr hq) hn⟩
  · exact ⟨fun hpq => (houtQ hq).trans (hinP (hpq.resolve_right hq)),
      fun hn => (houtQ hq).trans (houtP fun hp => hn (.inl hp))⟩

theorem Painted.congr (h : Painted m m' P c) (hPQ : ∀ x y, P x y ↔ Q x y) : Painted m m' Q c := by
  obtain rfl : P = Q := funext₂ fun x y => propext (hPQ x y)
  exact h

theorem Paints.congr {i : Instr} {s : State} (h : Paints i s P c) (hPQ : ∀ x y, P x y ↔ Q x y) :
    Paints i s Q c := by
  obtain ⟨m, hexec, hwf, hP⟩ := h
  exact ⟨m, hexec, hwf, hP.congr hPQ⟩

end footprint

/-! ## The box of two corners (R120) -/

theorem absDiff_self (a : Nat) : absDiff a a = 0 := by simp [absDiff]

section corners
variable (x1 y1 x2 y2 : U16)

/-- Both corners of the box are coordinates, so no run of the box wraps around. -/
theorem boxOf_far_lt : (boxOf x1 y1 x2 y2).x0 + (boxOf x1 y1 x2 y2).W < 65536 := by
  rw [(boxOf_far x1 y1 x2 y2).1]
  exact max_lt x1.isLt x2.isLt

theorem boxOf_comm : boxOf x2 y2 x1 y1 = boxOf x1 y1 x2 y2 := by
  simp only [boxOf, min_comm, absDiff_comm]

theorem boxOf_comm_y : boxOf x1 y2 x2 y1 = boxOf x1 y1 x2 y2 := by
  simp only [boxOf, min_comm, absDiff_comm]

theorem State.bothInBounds_comm_y (s : State) :
    s.BothInBounds x1 y2 x2 y1 ↔ s.BothInBounds x1 y1 x2 y2 := by
  unfold State.BothInBounds State.InBounds
  tauto

end corners

/-! ## RECT and FRECT as one validation and one drawing -/

section exec
variable {x1 y1 x2 y2 : U16} {c : Bool} {s : State}

/-- RECT draws when both corners are in bounds and both edges have a length, and fails otherwise
(R121, R124). -/
theorem exec_rect : exec (.rect x1 y1 x2 y2 c) s = .next
    (if s.BothInBounds x1 y1 x2 y2 ∧ 0 < (boxOf x1 y1 x2 y2).W ∧ 0 < (boxOf x1 y1 x2 y2).H then
      s.drawn (s.fb.outline s.cfg.rectExtent (boxOf x1 y1 x2 y2) c)
    else s.failed .outOfBounds) := by
  simp only [exec, execRect, Nat.pos_iff_ne_zero, ← not_or, ite_and, ite_not]

theorem exec_rect_of_edges (hb : s.BothInBounds x1 y1 x2 y2) (hW : 0 < (boxOf x1 y1 x2 y2).W)
    (hH : 0 < (boxOf x1 y1 x2 y2).H) : exec (.rect x1 y1 x2 y2 c) s =
      .next (s.redrawn (s.fb.outline s.cfg.rectExtent (boxOf x1 y1 x2 y2) c)) :=
  exec_drawn_of_valid exec_rect ⟨hb, hW, hH⟩

theorem paints_rect {P : Nat → Nat → Prop} (hwf : s.fb.wf = true) (hb : s.BothInBounds x1 y1 x2 y2)
    (hW : 0 < (boxOf x1 y1 x2 y2).W) (hH : 0 < (boxOf x1 y1 x2 y2).H)
    (hP : Painted s.fb (s.fb.outline s.cfg.rectExtent (boxOf x1 y1 x2 y2) c) P c) :
    Paints (.rect x1 y1 x2 y2 c) s P c :=
  ⟨_, exec_rect_of_edges hb hW hH, (Overwrites.outline ..).wf hwf, hP⟩

theorem paints_frect {P : Nat → Nat → Prop} (hwf : s.fb.wf = true) (hb : s.BothInBounds x1 y1 x2 y2)
    (hP : Painted s.fb (s.fb.fillBox s.cfg.rectExtent (boxOf x1 y1 x2 y2) c) P c) :
    Paints (.frect x1 y1 x2 y2 c) s P c :=
  ⟨_, exec_drawn_of_valid rfl hb, (Overwrites.fillBox ..).wf hwf, hP⟩

end exec

/-! ## The corners in any order (R120) -/

section order
variable {x1 y1 x2 y2 x1' y1' x2' y2' : U16}

/-- RECT sees of its corners whether both are in bounds, and their box. -/
theorem exec_rect_congr (c : Bool) (s : State) (hbox : boxOf x1' y1' x2' y2' = boxOf x1 y1 x2 y2)
    (hb : s.BothInBounds x1' y1' x2' y2' ↔ s.BothInBounds x1 y1 x2 y2) :
    exec (.rect x1' y1' x2' y2' c) s = exec (.rect x1 y1 x2 y2 c) s := by
  simp only [exec_rect, hbox, hb]

/-- FRECT sees of its corners whether both are in bounds, and their box. -/
theorem exec_frect_congr (c : Bool) (s : State) (hbox : boxOf x1' y1' x2' y2' = boxOf x1 y1 x2 y2)
    (hb : s.BothInBounds x1' y1' x2' y2' ↔ s.BothInBounds x1 y1 x2 y2) :
    exec (.frect x1' y1' x2' y2' c) s = exec (.frect x1 y1 x2 y2 c) s := by
  simp only [exec, execFrect, hbox, hb]

end order

/-- Settles O34: neither exchange changes the box or the bounds. -/
theorem rectangleCornersCommute : Obligations.RectangleCornersCommute := fun s x1 y1 x2 y2 c =>
  have hbox := boxOf_comm x1 y1 x2 y2
  have hbox' := boxOf_comm_y x1 y1 x2 y2
  have hb' := s.bothInBounds_comm_y x1 y1 x2 y2
  ⟨exec_rect_congr c s hbox and_comm, exec_rect_congr c s hbox' hb',
    exec_frect_congr c s hbox and_comm, exec_frect_congr c s hbox' hb'⟩

/-! ## RECT (R121 to R124) -/

/-- Settles O30: equal coordinates are an edge without length. -/
theorem rectRefusesBadCorners : Obligations.RectRefusesBadCorners := by
  refine fun s x1 y1 x2 y2 c => ⟨encodedAs_descriptor rfl, fun hbad => failsWith_of_not exec_rect ?_⟩
  rintro ⟨hb, hW, hH⟩
  rcases hbad with hn | rfl | rfl
  · exact hn hb
  · exact hW.ne' (absDiff_self _)
  · exact hH.ne' (absDiff_self _)

/-- The four runs under HALF_OPEN, each from a corner to one pixel short of the next (R122). -/
def OnPinwheel (x0 y0 W H x y : Nat) : Prop :=
  (y = y0 ∧ x0 ≤ x ∧ x < x0 + (W - 1))
    ∨ (x = x0 + W - 1 ∧ y0 ≤ y ∧ y < y0 + (H - 1))
    ∨ (y = y0 + H - 1 ∧ x0 + 1 ≤ x ∧ x < x0 + 1 + (W - 1))
    ∨ (x = x0 ∧ y0 + 1 ≤ y ∧ y < y0 + 1 + (H - 1))

/-- The four sides under INCLUSIVE, each without its two end pixels (R123). -/
def OnOpenSides (x0 y0 W H x y : Nat) : Prop :=
  (y = y0 ∧ x0 + 1 ≤ x ∧ x < x0 + 1 + (W - 1))
    ∨ (y = y0 + H ∧ x0 + 1 ≤ x ∧ x < x0 + 1 + (W - 1))
    ∨ (x = x0 ∧ y0 + 1 ≤ y ∧ y < y0 + 1 + (H - 1))
    ∨ (x = x0 + W ∧ y0 + 1 ≤ y ∧ y < y0 + 1 + (H - 1))

section outline
variable {m : Memory} {b : Box} {c : Bool}

theorem Memory.painted_outline_halfOpen (hm : m.wf = true) (hb : b.x0 + b.W < 65536) :
    Painted m (m.outline .halfOpen b c) (OnPinwheel b.x0 b.y0 b.W b.H) c := by
  have htop := Memory.wf_hRun (x := b.x0) (y := b.y0) (len := b.W - 1) (c := c) hm
  have hright := Memory.wf_vRun (x := b.x0 + b.W - 1) (y := b.y0) (h := b.H - 1) (c := c) htop
  have hbottom := Memory.wf_hRun (x := b.x0 + 1) (y := b.y0 + b.H - 1) (len := b.W - 1) (c := c) hright
  exact (Memory.painted_hRun hm (by omega)).andThen <|
    (Memory.painted_vRun htop (by omega)).andThen <|
    (Memory.painted_hRun hright (by omega)).andThen (Memory.painted_vRun hbottom (by omega))

theorem Memory.painted_outline_inclusive (hm : m.wf = true) (hb : b.x0 + b.W < 65536) :
    Painted m (m.outline .inclusive b c) (OnOpenSides b.x0 b.y0 b.W b.H) c := by
  have htop := Memory.wf_hRun (x := b.x0 + 1) (y := b.y0) (len := b.W - 1) (c := c) hm
  have hbottom := Memory.wf_hRun (x := b.x0 + 1) (y := b.y0 + b.H) (len := b.W - 1) (c := c) htop
  have hleft := Memory.wf_vRun (x := b.x0) (y := b.y0 + 1) (h := b.H - 1) (c := c) hbottom
  exact (Memory.painted_hRun hm (by omega)).andThen <|
    (Memory.painted_hRun htop (by omega)).andThen <|
    (Memory.painted_vRun hbottom (by omega)).andThen (Memory.painted_vRun hleft (by omega))

/-- Of a box of one pixel all four runs are empty. -/
theorem Memory.outline_halfOpen_of_one_pixel (hW : b.W = 1) (hH : b.H = 1) :
    m.outline .halfOpen b c = m := by
  simp [Memory.outline, Memory.outlineHalfOpen, Memory.hRun, Memory.vRun, hW, hH]

end outline

/-- The pinwheel covers the closed border of every box but one pixel. -/
theorem onPinwheel_iff_onBorder {x0 y0 W H : Nat} (hW : 0 < W) (hH : 0 < H) (h : ¬ (W = 1 ∧ H = 1))
    (x y : Nat) : OnPinwheel x0 y0 W H x y ↔ OnBorder x0 y0 W H x y := by
  unfold OnPinwheel OnBorder
  omega

/-- Settles O31: the four runs paint one after another. -/
theorem rectHalfOpenPaintsFourRuns : Obligations.RectHalfOpenPaintsFourRuns := by
  rintro s x1 y1 x2 y2 c _ _ _ _ hwf h1 h2 he rfl rfl rfl rfl hW hH
  refine paints_rect hwf ⟨h1, h2⟩ hW hH ?_
  rw [he]
  exact Memory.painted_outline_halfOpen hwf (boxOf_far_lt x1 y1 x2 y2)

/-- Settles O32: the four sides paint one after another. -/
theorem rectInclusivePaintsFourSides : Obligations.RectInclusivePaintsFourSides := by
  rintro s x1 y1 x2 y2 c _ _ _ _ hwf h1 h2 he rfl rfl rfl rfl hW hH
  refine paints_rect hwf ⟨h1, h2⟩ hW hH ?_
  rw [he]
  exact Memory.painted_outline_inclusive hwf (boxOf_far_lt x1 y1 x2 y2)

/-- Settles O33: the four runs are the closed border, and empty for one pixel. -/
theorem rectHalfOpenIsTheClosedBorder : Obligations.RectHalfOpenIsTheClosedBorder := by
  rintro s x1 y1 x2 y2 c x0 y0 W H hwf h1 h2 he hx0 hy0 rfl rfl hW hH
  refine ⟨fun hbox => ?_, fun ⟨hW1, hH1⟩ => ?_⟩
  · exact (rectHalfOpenPaintsFourRuns s x1 y1 x2 y2 c x0 y0 _ _ hwf h1 h2 he hx0 hy0 rfl rfl hW hH).congr
      (onPinwheel_iff_onBorder hW hH hbox)
  · rw [exec_rect_of_edges ⟨h1, h2⟩ hW hH, he, Memory.outline_halfOpen_of_one_pixel hW1 hH1]

/-! ## FRECT (R125, R126) -/

section fillBox
variable {m : Memory} {b : Box} {c : Bool}

theorem Memory.painted_fillRows {x len y n : Nat} (hm : m.wf = true) (hx : x + len ≤ 65536) :
    Painted m (m.fillRows x len c y n)
      (fun px py => (y ≤ py ∧ py < y + n) ∧ x ≤ px ∧ px < x + len) c :=
  painted_of_pixel_eq_ite fun _ _ hx' => Memory.pixel_fillRows hm hx hx'

theorem Memory.painted_fillBox_halfOpen (hm : m.wf = true) (hb : b.x0 + b.W < 65536) :
    Painted m (m.fillBox .halfOpen b c)
      (fun x y => (b.y0 ≤ y ∧ y < b.y0 + b.H) ∧ b.x0 ≤ x ∧ x < b.x0 + b.W) c :=
  Memory.painted_fillRows hm hb.le

/-- Under INCLUSIVE the box is one row and one column larger (R125, R126). -/
theorem Memory.painted_fillBox_inclusive (hm : m.wf = true) (hb : b.x0 + b.W < 65536) :
    Painted m (m.fillBox .inclusive b c)
      (fun x y => (b.y0 ≤ y ∧ y ≤ b.y0 + b.H) ∧ b.x0 ≤ x ∧ x ≤ b.x0 + b.W) c :=
  (Memory.painted_fillRows hm hb).congr fun x y => by
    simp only [← Nat.add_assoc, Nat.lt_succ_iff]

end fillBox

/-- Settles O35: one run on each row of the box, under either reading of its far corner. -/
theorem frectFillsTheBox : Obligations.FrectFillsTheBox := by
  rintro s x1 y1 x2 y2 c _ _ _ _ hwf rfl rfl rfl rfl
  have hfar := boxOf_far_lt x1 y1 x2 y2
  refine ⟨encodedAs_descriptor rfl, fun hb he => paints_frect hwf hb ?_,
    fun hb he => paints_frect hwf hb ?_, failsWith_of_not rfl⟩
  · rw [he]
    exact Memory.painted_fillBox_halfOpen hwf hfar
  · rw [he]
    exact Memory.painted_fillBox_inclusive hwf hfar

/-! ## TEXBLT (R130) -/

section payload
variable {len n k : Nat} {bytes : List Byte}

/-- Every row of a payload of the announced length is complete (30_encoding.md R75). -/
theorem length_getD_payloadRows (hl : bytes.length = n * len) (hk : k < n) :
    ((payloadRows len n bytes).getD k []).length = len := by
  have hle : (k + 1) * len ≤ n * len := Nat.mul_le_mul_right len hk
  rw [Nat.succ_mul] at hle
  rw [payloadRows_getD hk, List.length_take, List.length_drop, hl]
  omega

theorem getD_getD_payloadRows {j : Nat} (hk : k < n) (hj : j < len) :
    ((payloadRows len n bytes).getD k []).getD j 0 = bytes.getD (k * len + j) 0 := by
  rw [payloadRows_getD hk, List.getD_eq_getElem?_getD, List.getElem?_take_of_lt hj, List.getElem?_drop,
    List.getD_eq_getElem?_getD]

/-- The rows of a payload of the announced length as bytes of the panel, clipped (R130). -/
theorem Memory.byteAt_blitRows_payloadRows {m : Memory} {h bpr bc y r i : Nat} (hm : m.wf = true)
    (hb : bpr ≤ 8192) (hi : i < 8192) (hl : bytes.length = n * len) :
    (m.blitRows h bpr bc y (payloadRows len n bytes)).byteAt r i =
      if (y ≤ r ∧ r < y + n ∧ r < h) ∧ bc ≤ i ∧ i < bc + len ∧ i < bpr
      then bytes.getD ((r - y) * len + (i - bc)) 0 else m.byteAt r i := by
  rw [Memory.byteAt_blitRows hm hb hi, payloadRows_length]
  by_cases hr : y ≤ r ∧ r < y + n ∧ r < h
  · have hk : r - y < n := by omega
    rw [length_getD_payloadRows hl hk]
    refine ite_congr rfl (fun hin => ?_) fun _ => rfl
    exact getD_getD_payloadRows hk (by omega)
  · rw [if_neg (fun hin => hr hin.1), if_neg (fun hin => hr hin.1)]

end payload

/-- With a payload of the announced length TEXBLT is one validation and one drawing (R130). -/
theorem exec_texblt_of_length {x y nrows rowlen : U16} {payload : List Byte} (s : State)
    (hl : payload.length = nrows.toNat * rowlen.toNat) : exec (.texblt x y nrows rowlen payload) s = .next
      (if s.InBounds x y then
        s.drawn (s.fb.blitRows s.height.toNat s.bpr (x.toNat / 8) y.toNat
          (payloadRows rowlen.toNat nrows.toNat payload))
      else s.failed .outOfBounds) :=
  congrArg Host.Outcome.next (if_pos hl)

/-- Settles O36: the texture is its rows, each a run of whole bytes, dropped past the panel. -/
theorem texbltCopiesClippedRows : Obligations.TexbltCopiesClippedRows := by
  intro s x y nrows rowlen payload hwf hl
  have hexec := exec_texblt_of_length (x := x) (y := y) s hl
  refine ⟨encodedAs_descriptor (beq_iff_eq.mpr hl), fun hb => ?_, failsWith_of_not hexec⟩
  exact ⟨_, exec_drawn_of_valid hexec hb, Memory.wf_blitRows hwf, fun r i hi =>
    Memory.byteAt_blitRows_payloadRows hwf s.bpr_le hi hl⟩

end Sys2Proof.Machine

/-! # Glyphs and the Printer: PUTCH, PRSET, PRCH (43_glyphs.md) -/

namespace Sys2Proof.Machine

/-! ## PUTCH (R141, R142) -/

section cell
variable {s : State} {x y : U16}

/-- A cell of a panel ends within the addressable columns (00_scope.md R11). -/
theorem State.CellFits.add_five_le (h : s.CellFits x y) : x.toNat + 5 ≤ 65536 :=
  h.2.1.trans s.width.isLt.le

theorem exec_putch_of_cellFits (code : Byte) (c : Bool) (h : s.CellFits x y) :
    exec (.putch x y code c) s = .next (s.redrawn (s.fb.drawGlyph s.cfg x.toNat y.toNat code c)) :=
  exec_drawn_of_valid rfl h

/-- What PUTCH leaves where it completed with its cell in the panel. -/
theorem fb_of_exec_putch {t : State} {code : Byte} {c : Bool} (h : s.CellFits x y)
    (ht : exec (.putch x y code c) s = .next t) :
    t.fb = s.fb.drawGlyph s.cfg x.toNat y.toNat code c := by
  cases (exec_putch_of_cellFits code c h).symm.trans ht
  rfl

end cell

/-- The pixels of a drawn cell are the glyph's alone: they do not depend on what it is drawn over (R142). -/
theorem Memory.pixel_drawGlyph_opaque {m m' : Memory} {cfg : Config} {x y px py : Nat} {code : Byte}
    {c : Bool} (hm : m.wf = true) (hm' : m'.wf = true) (hx : x + 5 ≤ 65536) (hxlo : x ≤ px)
    (hxhi : px < x + 5) (hylo : y ≤ py) (hyhi : py < y + 8) :
    (m.drawGlyph cfg x y code c).pixel px py = (m'.drawGlyph cfg x y code c).pixel px py := by
  obtain ⟨col, rfl⟩ := Nat.exists_eq_add_of_le hxlo
  obtain ⟨row, rfl⟩ := Nat.exists_eq_add_of_le hylo
  have hcol : col < 5 := by omega
  have hrow : row < 8 := by omega
  exact (Memory.pixel_drawGlyph_inside hm hx ⟨col, hcol⟩ hrow).trans
    (Memory.pixel_drawGlyph_inside hm' hx ⟨col, hcol⟩ hrow).symm

/-- Settles O39: PUTCH is one validation and one drawing, given pixel by pixel inside and outside the cell. -/
theorem putchDrawsTheCell : Obligations.PutchDrawsTheCell := by
  intro s x y code c hwf
  refine ⟨encodedAs_descriptor rfl, fun hfit => ?_, failsWith_of_not rfl⟩
  have hx := State.CellFits.add_five_le hfit
  exact ⟨_, exec_putch_of_cellFits code c hfit, Memory.wf_drawGlyph hwf,
    fun col _ hrow => Memory.pixel_drawGlyph_inside hwf hx col hrow,
    fun _ _ hpx hout => Memory.pixel_drawGlyph_outside hwf hx hpx hout⟩

/-- Settles O40: one panel and one font draw one glyph on both framebuffers, and the sixth column is outside
the cell. -/
theorem putchIsOpaque : Obligations.PutchIsOpaque := by
  intro s s' t t' x y code c hwf hwf' hwidth hheight hcfg hfit ht ht'
  have hx := hfit.add_five_le
  have hfit' : s'.CellFits x y := by
    unfold State.CellFits State.InBounds
    rwa [hwidth, hheight]
  rw [fb_of_exec_putch hfit ht, fb_of_exec_putch hfit' ht', hcfg]
  exact ⟨fun _ _ => Memory.pixel_drawGlyph_opaque hwf hwf' hx,
    fun _ hpx => Memory.pixel_drawGlyph_outside hwf hx hpx (by omega)⟩

/-! ## The Printer (R145, R146) -/

/-- Settles O41: PRSET validates nothing and writes the Printer. -/
theorem prsetSetsThePrinter : Obligations.PrsetSetsThePrinter := fun _ _ _ _ =>
  ⟨encodedAs_descriptor rfl, rfl⟩

/-- With a Printer, PRCH is one validation and one drawing at the cursor, which it advances (R146). -/
theorem exec_prch_of_set {s : State} (code : Byte) (h : s.pr.set = true) : exec (.prch code) s = .next
    (if s.CellFits s.pr.x s.pr.y then
      State.drawn { s with pr := s.pr.advance }
        (s.fb.drawGlyph s.cfg s.pr.x.toNat s.pr.y.toNat code s.pr.color)
    else s.failed .outOfBounds) :=
  congrArg Host.Outcome.next (if_pos h)

/-- In a panel of whole bytes the character pitch leads from a cell that fits to a cursor that has not wrapped:
WIDTH is at most 65528 (20_memory.md R45). -/
theorem toNat_add_six_of_cellFits {s : State} {x y : U16} (hw : s.width.toNat % 8 = 0)
    (h : s.CellFits x y) : (x + 6).toNat = x.toNat + 6 := by
  obtain ⟨-, hcols, -⟩ := h
  have hwidth := s.width.isLt
  have hlt : x.toNat + 6 < 2 ^ 16 := by omega
  exact BitVec.toNat_add_of_lt hlt

/-- Settles O42: the Printer, then the cell, decide which of the three ways PRCH ends. -/
theorem prchPrintsAndAdvances : Obligations.PrchPrintsAndAdvances := by
  intro s code hw
  refine ⟨encodedAs_descriptor rfl, fun hset hfit => ?_,
    fun hset => failsWith_of_not (exec_prch_of_set code hset),
    fun hset => failsWith_of_not rfl (Bool.eq_false_iff.mp hset)⟩
  exact ⟨_, exec_putch_of_cellFits code s.pr.color hfit,
    (exec_prch_of_set code hset).trans (congrArg _ (if_pos hfit)), toNat_add_six_of_cellFits hw hfit⟩

end Sys2Proof.Machine

/-! # The protocol: DCLR, RFSH, RFLN and the VCOM flag (44_protocol.md) -/

namespace Sys2Proof.Machine

/-! ## An operation that comes to its Send (R156) -/

section send
variable {s : State} {i : Instr} {frame : List Byte}

theorem State.transportSilent_eq_false (h : s.TransportAnswers) : s.transportSilent = false :=
  beq_eq_false_iff_ne.mpr h

/-- The environment's next answer, where it has one ready, is the answer to the write (60_exceptions.md R201). -/
theorem State.transportOk_of_head {r : Reply} (h : s.replies.head? = some r) : s.transportOk = (r == .ok) := by
  obtain ⟨tl, htl⟩ := List.head?_eq_some_iff.mp h
  simp only [State.transportOk, htl]

theorem State.transmitted_eq_afterWrite (s : State) (frame : List Byte) :
    s.transmitted frame = s.afterWrite frame s.transportOk := rfl

/-- An operation that is one Send completes with the Transport's answer, whatever that is. -/
theorem sends_of_exec_eq_send (h : exec i s = s.send frame) (ha : s.TransportAnswers) : Sends i s frame := by
  refine ⟨s.transportOk, State.transportOk_of_head, State.transportOk_of_head, ?_⟩
  rw [h, State.send, State.transportSilent_eq_false ha, State.transmitted_eq_afterWrite]
  rfl

end send

/-! ## The validations of RFSH and RFLN (R161, R162, R163) -/

section validation
variable {s : State} {n : U16}

theorem exec_rfsh_of_le (h : s.height.toNat ≤ 255) : exec .rfsh s = s.send s.fullFrame := if_pos h

theorem rfsh_failsWith_illegalCommand (h : 255 < s.height.toNat) : FailsWith .rfsh s .illegalCommand :=
  if_neg h.not_ge

theorem exec_rfln_of_lt (hn : n.toNat < s.height.toNat) : exec (.rfln n) s =
    if n.toNat + 1 ≤ 255 then s.send (s.lineFrame n.toNat) else .next (s.failed .illegalCommand) :=
  if_pos hn

theorem exec_rfln_of_le (hn : n.toNat < s.height.toNat) (h : n.toNat + 1 ≤ 255) :
    exec (.rfln n) s = s.send (s.lineFrame n.toNat) :=
  (exec_rfln_of_lt hn).trans (if_pos h)

theorem rfln_failsWith_illegalCommand (hn : n.toNat < s.height.toNat) (h : 255 < n.toNat + 1) :
    FailsWith (.rfln n) s .illegalCommand :=
  (exec_rfln_of_lt hn).trans (if_neg h.not_ge)

theorem rfln_failsWith_outOfBounds (hn : ¬ n.toNat < s.height.toNat) : FailsWith (.rfln n) s .outOfBounds :=
  if_neg hn

end validation

/-! ## The three operations (R160 to R163) -/

/-- Settles O43: DCLR is one Send of the Clear frame. -/
theorem dclrSendsTheClearFrame : Obligations.DclrSendsTheClearFrame := fun _ =>
  ⟨encodedAs_descriptor rfl, sends_of_exec_eq_send rfl⟩

/-- Settles O44: with line numbers that fit a byte, RFSH is one Send of the full frame. -/
theorem rfshSendsEveryRow : Obligations.RfshSendsEveryRow := by
  refine fun s => ⟨encodedAs_descriptor rfl, fun hh ha => ?_, rfsh_failsWith_illegalCommand⟩
  rw [← State.fullFrame_eq_flatMap]
  exact sends_of_exec_eq_send (exec_rfsh_of_le hh) ha

/-- Settles O45: for a row that exists, with a line number that fits a byte, RFLN is one Send of its frame. -/
theorem rflnSendsOneRow : Obligations.RflnSendsOneRow := by
  refine fun s n => ⟨encodedAs_descriptor rfl, fun hn hl ha => ?_, rfln_failsWith_outOfBounds,
    rfln_failsWith_illegalCommand⟩
  rw [← State.row_eq_rowBytes]
  exact sends_of_exec_eq_send (exec_rfln_of_le hn hl) ha

/-- Settles O46: the two refusals, and a local operation always completes. -/
theorem lineNumbersAbove255AreRefused : Obligations.LineNumbersAbove255AreRefused := by
  refine fun s => ⟨rfsh_failsWith_illegalCommand, fun n => rfln_failsWith_illegalCommand, fun i hi => ?_⟩
  obtain ⟨m, p, r, he, -⟩ := exec_local s hi
  exact ⟨_, he⟩

/-! ## The flag over one operation (R156) -/

/-- Settles O49: an operation is local, fails its validation, or is one Send, which alone inverts the flag. -/
theorem vcomInvertsOncePerTransmission : Obligations.VcomInvertsOncePerTransmission := by
  intro i s t h
  rcases exec_next h with ⟨-, m, p, r, rfl, -⟩ | ⟨hi, ⟨e, rfl, -⟩ | ⟨f, rfl, hhead, -⟩⟩
  · exact .inl ⟨rfl, rfl, rfl⟩
  · exact .inl ⟨rfl, rfl, rfl⟩
  · exact .inr ⟨hi, rfl, rfl, ⟨f, s.transportOk⟩, rfl, hhead, rfl⟩

/-! ## The flag over all frames since reset (R157) -/

/-- Numbers count from the oldest frame; the list is newest first. -/
theorem frameOk_of_getElem?_reverse {cfg : Config} {height bpr k : Nat} {fs : List Transmission}
    {f : Transmission} (h : framesOk cfg height bpr fs = true) (hk : fs.reverse[k]? = some f) :
    frameOk cfg height bpr k f = true := by
  induction fs with
  | nil => cases hk
  | cons g fs ih =>
    obtain ⟨hg, hfs⟩ := Bool.and_eq_true_iff.mp h
    rw [List.reverse_cons, List.getElem?_append, List.length_reverse, List.getElem?_singleton] at hk
    split at hk
    next => exact ih hfs hk
    next hge =>
      split at hk
      next hsub =>
        cases hk
        obtain rfl : k = fs.length := by omega
        exact hg
      next => cases hk

theorem frameOk_head? {cfg : Config} {height bpr k : Nat} {f : Transmission}
    (h : frameOk cfg height bpr k f = true) :
    f.bytes.head? = some (vcomByte cfg (vcomAfter cfg k) ||| cfg.writeCmd)
      ∨ f.bytes.head? = some (vcomByte cfg (vcomAfter cfg k) ||| cfg.clearCmd) := by
  obtain ⟨⟨hhead, -⟩, -⟩ : (_ ∧ _) ∧ _ := by simpa only [frameOk, Bool.and_eq_true] using h
  simpa using hhead

theorem vcomBit_of_legal {cfg : Config} (h : cfg.legal = true) :
    cfg.vcomBit ≠ 0 ∧ cfg.vcomBit &&& cfg.writeCmd = 0 ∧ cfg.vcomBit &&& cfg.clearCmd = 0 := by
  simp only [Config.legal, Bool.and_eq_true, beq_iff_eq] at h
  obtain ⟨⟨⟨hone, hwrite⟩, hclear⟩, -⟩ := h
  refine ⟨fun hzero => ?_, hwrite, hclear⟩
  rw [hzero] at hone
  exact absurd hone (by decide)

/-- In a command byte the VCOM bit is set exactly where the flag is. -/
theorem vcomByte_or_and_vcomBit {cfg : Config} {cmd : Byte} (hbit : cfg.vcomBit ≠ 0)
    (hcmd : cfg.vcomBit &&& cmd = 0) (v : Bool) :
    (vcomByte cfg v ||| cmd) &&& cfg.vcomBit ≠ 0 ↔ v = true := by
  rw [BitVec.and_comm, BitVec.and_or_distrib_left, hcmd]
  cases v with
  | false => simp [vcomByte]
  | true => simpa [vcomByte] using hbit

/-- Settles O50: the command byte of the k-th frame carries the flag of its number, in a bit no command has. -/
theorem vcomBitsAlternate : Obligations.VcomBitsAlternate := by
  rintro s k f ⟨-, -, -, hcfg, -, -, hframes⟩ hk
  obtain ⟨hbit, hwrite, hclear⟩ := vcomBit_of_legal hcfg
  rcases frameOk_head? (frameOk_of_getElem?_reverse hframes hk) with hhead | hhead
  · exact ⟨_, hhead, vcomByte_or_and_vcomBit hbit hwrite _⟩
  · exact ⟨_, hhead, vcomByte_or_and_vcomBit hbit hclear _⟩

end Sys2Proof.Machine

/-! # The asset decoder: TEXDEC (45_asset_decoder.md) -/

namespace Sys2Proof.Machine

/-! ## The rows of a texture (R66, R176) -/

theorem payloadRows_eq_map_range (len n : Nat) (bytes : List Byte) :
    payloadRows len n bytes = (List.range n).map fun k => (bytes.drop (k * len)).take len := by
  induction n generalizing bytes with
  | zero => rfl
  | succ n ih =>
    simp [payloadRows, ih, List.range_succ_eq_map, List.drop_drop, Nat.succ_mul, Nat.add_comm]

/-- Rows of one length, written one after the other, are cut apart again (R178). -/
theorem payloadRows_flatten {len : Nat} {rows : List (List Byte)} (h : ∀ r ∈ rows, r.length = len) :
    payloadRows len rows.length rows.flatten = rows := by
  induction rows with
  | nil => rfl
  | cons r rows ih =>
    obtain ⟨rfl, hrows⟩ := List.forall_mem_cons.mp h
    rw [List.length_cons, payloadRows, List.flatten_cons, List.take_left, List.drop_left, ih hrows]

theorem length_flatten_rows {len : Nat} {rows : List (List Byte)} (h : ∀ r ∈ rows, r.length = len) :
    rows.flatten.length = rows.length * len := by
  rw [List.length_flatten, List.map_congr_left h, List.map_const', List.sum_replicate, smul_eq_mul]

/-! ## The header (R66, R176) -/

/-- The inverse of `littleEndian_headerField`. -/
theorem headerField_littleEndian (v : U16) : headerField (v.setWidth 8) ((v >>> 8).setWidth 8) = v := by
  refine BitVec.eq_of_toNat_eq ?_
  rw [toNat_headerField, BitVec.toNat_setWidth, BitVec.toNat_setWidth, BitVec.toNat_ushiftRight,
    Nat.shiftRight_eq_div_pow]
  omega

theorem exists_header_of_four_le {bytes : List Byte} (h : 4 ≤ bytes.length) :
    ∃ b0 b1 b2 b3 body, bytes = b0 :: b1 :: b2 :: b3 :: body := by
  match bytes, h with
  | b0 :: b1 :: b2 :: b3 :: body, _ => exact ⟨b0, b1, b2, b3, body, rfl⟩

/-! ## The decoder's three outcomes (R176) -/

theorem decodeTexture_of_no_header {bytes : List Byte} (h : bytes.length < 4) :
    decodeTexture bytes = .error .truncated := by
  unfold decodeTexture
  split
  next => exact absurd h (by simp)
  next => rfl

section outcomes
variable {b0 b1 b2 b3 : Byte} {body : List Byte}

theorem decodeTexture_of_rows_missing
    (h : body.length < (headerField b2 b3).toNat * textureRowLength (headerField b0 b1).toNat) :
    decodeTexture (b0 :: b1 :: b2 :: b3 :: body) = .error .truncated :=
  if_pos h

theorem decodeTexture_of_rows_present
    (h : (headerField b2 b3).toNat * textureRowLength (headerField b0 b1).toNat ≤ body.length) :
    decodeTexture (b0 :: b1 :: b2 :: b3 :: body) =
      .ok (.texture (headerField b0 b1) (headerField b2 b3)
        (payloadRows (textureRowLength (headerField b0 b1).toNat) (headerField b2 b3).toNat body)) :=
  if_neg h.not_gt

end outcomes

/-- With a payload of the announced length TEXDEC answers what the decoder makes of it and changes nothing. -/
theorem exec_texdec_of_length {plen : BitVec 32} {bytes : List Byte} {r : Result} (s : State)
    (hl : bytes.length = plen.toNat) (hr : decodeTexture bytes = r) :
    exec (.texdec plen bytes) s = .next (s.answering r) :=
  hr ▸ congrArg Host.Outcome.next (if_pos hl)

/-- The payload length stands in C (low half) and D (high half) (30_encoding.md R73, R75). -/
theorem encodedAs_texdec {plen : BitVec 32} {bytes : List Byte} (hl : bytes.length = plen.toNat) :
    EncodedAs (.texdec plen bytes) ⟨0x30, false, 0, 0, 0, plen.extractLsb' 0 16, plen.extractLsb' 16 16⟩ := by
  rw [← BitVec.setWidth_eq_extractLsb' (by decide), ← BitVec.setWidth_ushiftRight_eq_extractLsb]
  exact encodedAs_descriptor (beq_iff_eq.mpr hl)

/-- Settles O51: the decoder's three outcomes turn on whether the header and then all its rows are there. -/
theorem texdecCutsTheRows : Obligations.TexdecCutsTheRows := by
  intro s plen bytes w h rl hl hw hh hrl
  refine ⟨encodedAs_texdec hl, fun hshort => ?_, fun hlen hshort => ?_, fun hlen hrows => ?_⟩
  · exact exec_texdec_of_length s hl (decodeTexture_of_no_header hshort)
  all_goals
    obtain ⟨b0, b1, b2, b3, body, rfl⟩ := exists_header_of_four_le hlen
    obtain rfl : (headerField b0 b1).toNat = w := (toNat_headerField b0 b1).trans hw.symm
    obtain rfl : (headerField b2 b3).toNat = h := (toNat_headerField b2 b3).trans hh.symm
    obtain rfl : rl = textureRowLength (headerField b0 b1).toNat := hrl
  · exact exec_texdec_of_length s hl (decodeTexture_of_rows_missing hshort)
  · rw [exec_texdec_of_length s hl (decodeTexture_of_rows_present hrows), payloadRows_eq_map_range]
    simp [Nat.add_comm 4]

/-! ## An asset written out and decoded (R178) -/

section asset
variable {w h : U16} {rows : List (List Byte)}

theorem encodeAsset_eq_cons : encodeAsset w h rows = w.setWidth 8 :: (w >>> 8).setWidth 8 ::
    h.setWidth 8 :: (h >>> 8).setWidth 8 :: rows.flatten := rfl

theorem length_encodeAsset_lt (hn : rows.length = h.toNat)
    (hr : ∀ r ∈ rows, r.length = textureRowLength w.toNat) : (encodeAsset w h rows).length < 2 ^ 32 := by
  have hbody : rows.flatten.length ≤ 65535 * 8192 := by
    rw [length_flatten_rows hr]
    exact Nat.mul_le_mul (by omega) (by unfold textureRowLength; omega)
  simp only [encodeAsset_eq_cons, List.length_cons]
  omega

theorem decodeTexture_encodeAsset (hn : rows.length = h.toNat)
    (hr : ∀ r ∈ rows, r.length = textureRowLength w.toNat) :
    decodeTexture (encodeAsset w h rows) = .ok (.texture w h rows) := by
  have hbody : h.toNat * textureRowLength w.toNat = rows.flatten.length := by
    rw [length_flatten_rows hr, hn]
  rw [encodeAsset_eq_cons, decodeTexture_of_rows_present] <;>
    simp only [headerField_littleEndian]
  · rw [← hn, payloadRows_flatten hr]
  · exact hbody.le

end asset

/-- Settles O52: the asset's length fits TEXDEC's 32 bits, and the decoder inverts the encoder. -/
theorem assetRoundTrip : Obligations.AssetRoundTrip := by
  intro s w h rows hn hr
  have hl : (encodeAsset w h rows).length = (BitVec.ofNat 32 (encodeAsset w h rows).length).toNat := by
    rw [BitVec.toNat_ofNat, Nat.mod_eq_of_lt (length_encodeAsset_lt hn hr)]
  exact exec_texdec_of_length s hl (decodeTexture_encodeAsset hn hr)

end Sys2Proof.Machine

/-! # Exceptions: how an operation ends, and with which error (60_exceptions.md) -/

namespace Sys2Proof.Machine

/-! ## Completing and hanging (R185, R201) -/

theorem State.send_of_silent {s : State} (h : s.replies.head? = some .silent) (frame : List Byte) :
    s.send frame = .fault .transportHang :=
  if_pos (beq_iff_eq.mpr h)

/-- An operation completes, unless it hangs on the Transport. -/
theorem exec_completes_or_hangs (i : Instr) (s : State) : (∃ t, exec i s = .next t)
    ∨ (Transmits i = true ∧ s.replies.head? = some .silent ∧ exec i s = .fault .transportHang) := by
  cases hi : Transmits i with
  | false =>
    obtain ⟨m, p, r, he, -⟩ := exec_local s hi
    exact .inl ⟨_, he⟩
  | true =>
    rcases exec_protocol s hi with ⟨e, he, -⟩ | ⟨f, he, -⟩
    · exact .inl ⟨_, he⟩
    · rcases s.send_cases f with ⟨hs, hf⟩ | ⟨-, hn⟩
      · exact .inr ⟨rfl, beq_iff_eq.mp hs, he.trans hf⟩
      · exact .inl ⟨_, he.trans hn⟩

/-- Settles O4: with an answer from the Transport the operation does not hang, and a completed one has put one
completion on the record. -/
theorem everyOperationEndsInOneResult : Obligations.EveryOperationEndsInOneResult := by
  intro i s ha
  rcases exec_completes_or_hangs i s with ⟨t, ht⟩ | ⟨hi, hs, -⟩
  · obtain ⟨c, hc⟩ := exec_next_trace ht
    exact ⟨t, c.sent, c.result, ht, hc⟩
  · rcases ha with hn | ha
    · cases hi.symm.trans hn
    · exact absurd hs ha

/-- Settles O5: hanging is the only way not to complete, and a Send that meets silence hangs. -/
theorem onlyASilentTransportStops : Obligations.OnlyASilentTransportStops := by
  refine ⟨fun i s r hr => ?_, fun i s f hf => ?_, fun s hs => ⟨State.send_of_silent hs _,
    fun hh => (exec_rfsh_of_le hh).trans (State.send_of_silent hs _),
    fun n hn hl => (exec_rfln_of_le hn hl).trans (State.send_of_silent hs _)⟩⟩
  · rcases exec_completes_or_hangs i s with ⟨t, ht⟩ | ⟨-, -, hh⟩
    · cases ht.symm.trans hr
    · cases hh.symm.trans hr
  · rcases exec_completes_or_hangs i s with ⟨t, ht⟩ | ⟨hi, hs, hh⟩
    · cases ht.symm.trans hf
    · cases hh.symm.trans hf
      exact ⟨hi, hs, rfl⟩

/-! ## The state after an error (R192, R196) -/

section error
variable {i : Instr} {s t : State} {sent : Option Transmission} {e : ErrorKind}

/-- The one error of a Send is the Transport's `Err` (R196). -/
theorem State.transmitted_error {f : List Byte}
    (he : (s.transmitted f).trace.head? = some { sent := sent, result := .error e }) :
    e = .transportError ∧ sent = some { bytes := f, ok := false } := by
  rw [State.transmitted_trace] at he
  cases hok : s.transportOk <;> rw [hok] at he <;> cases he
  exact ⟨rfl, rfl⟩

/-- An error other than TransportError leaves only its result; TransportError comes after the write. -/
theorem exec_error_state (h : exec i s = .next t)
    (he : t.trace.head? = some { sent := sent, result := .error e }) :
    (e ≠ .transportError ∧ t = s.answering (.error e))
      ∨ (e = .transportError ∧ ∃ f, t = s.transmitted f) := by
  rcases exec_next h with ⟨-, m, p, r, rfl, hl⟩ | ⟨-, ⟨e', rfl, hk⟩ | ⟨f, rfl, -⟩⟩
  · cases he
    obtain ⟨rfl, rfl⟩ := hl.error_kept e rfl
    refine .inl ⟨?_, rfl⟩
    rcases hl.error_kind e rfl with rfl | rfl | ⟨rfl, -⟩ <;> decide
  · cases he
    refine .inl ⟨?_, rfl⟩
    rcases hk with rfl | rfl <;> decide
  · exact .inr ⟨(State.transmitted_error he).1, f, rfl⟩

end error

/-- Settles O6: the state is the one before with the error recorded, or the one after the write. -/
theorem errorsArePrecise : Obligations.ErrorsArePrecise := by
  intro i s t sent e h he
  rcases exec_error_state h he with ⟨hne, rfl⟩ | ⟨rfl, f, rfl⟩
  · exact ⟨rfl, rfl, rfl, rfl, rfl, fun _ => rfl, fun ht => absurd ht hne⟩
  · exact ⟨rfl, rfl, rfl, rfl, rfl, fun hne => absurd rfl hne, fun _ => rfl⟩

/-! ## Which operation raises which kind, and when (R186 to R189, R196) -/

/-- The errors an operation may complete with, each on its condition, and what it has sent by then. -/
inductive Raises (i : Instr) (s : State) : Option Transmission → ErrorKind → Prop where
  | outOfBounds (h : OutOfBoundsFor i s) : Raises i s none .outOfBounds
  | illegalCommand (h : IllegalFor i s) : Raises i s none .illegalCommand
  | truncated (h : ∃ plen bytes, i = .texdec plen bytes) : Raises i s none .truncated
  | transportError (h : Transmits i = true) (f : List Byte) :
      Raises i s (some { bytes := f, ok := false }) .transportError

/-- If the last completion of `t` is an error, it is one that `i` raises on `s`. -/
def Justified (i : Instr) (s t : State) : Prop :=
  ∀ sent e, t.trace.head? = some { sent := sent, result := .error e } → Raises i s sent e

namespace Justified
variable {i : Instr} {s t : State}

/-- A success raises nothing, whatever it did to the state. -/
theorem done {a : State} {v : Value} : Justified i s (a.done v) := fun _ _ he => by cases he

theorem failed_outOfBounds (h : OutOfBoundsFor i s) : Justified i s (s.failed .outOfBounds) :=
  fun _ _ he => by cases he; exact .outOfBounds h

theorem failed_illegalCommand (h : IllegalFor i s) : Justified i s (s.failed .illegalCommand) :=
  fun _ _ he => by cases he; exact .illegalCommand h

theorem decoded {plen : BitVec 32} {bytes : List Byte} :
    Justified (.texdec plen bytes) s (s.record none (decodeTexture bytes)) := fun sent e he => by
  obtain ⟨rfl, hr⟩ : none = sent ∧ decodeTexture bytes = .error e := by simpa using he
  obtain rfl := decodeTexture_error hr
  exact .truncated ⟨plen, bytes, rfl⟩

theorem of_send {frame : List Byte} (hi : Transmits i = true) (h : s.send frame = .next t) :
    Justified i s t := fun sent e he => by
  obtain rfl := State.send_next h
  obtain ⟨rfl, rfl⟩ := State.transmitted_error he
  exact .transportError hi frame

section validation
variable {P : Prop} [Decidable P] {a : State}

/-- The validation of a payload or of the Printer, before what it guards. -/
theorem unless_illegal (hn : ¬ P → IllegalFor i s) (ha : Justified i s a) :
    Justified i s (if P then a else s.failed .illegalCommand) := by
  split
  next => exact ha
  next hP => exact failed_illegalCommand (hn hP)

/-- The validation of bounds, before an operation that then succeeds. -/
theorem unless_outOfBounds {v : Value} (hn : ¬ P → OutOfBoundsFor i s) :
    Justified i s (if P then a.done v else s.failed .outOfBounds) := by
  split
  next => exact done
  next hP => exact failed_outOfBounds (hn hP)

end validation

end Justified

section bounds
variable {s : State} {x1 y1 x2 y2 : U16}

theorem outOfPanel_or_of_not_bothInBounds (h : ¬ s.BothInBounds x1 y1 x2 y2) :
    OutOfPanel s x1 y1 ∨ OutOfPanel s x2 y2 :=
  (not_and_or.mp h).imp outOfPanel_iff.mpr outOfPanel_iff.mpr

theorem eq_of_not_absDiff_pos {a b : U16} (h : ¬ 0 < absDiff b.toNat a.toNat) : a = b := by
  unfold absDiff at h
  exact BitVec.eq_of_toNat_eq (by omega)

/-- What RECT refuses: a corner out of bounds, or an edge without length (R124). -/
theorem rect_outOfBounds_of_not {c : Bool} (h : ¬ (s.BothInBounds x1 y1 x2 y2
    ∧ 0 < (boxOf x1 y1 x2 y2).W ∧ 0 < (boxOf x1 y1 x2 y2).H)) :
    OutOfBoundsFor (.rect x1 y1 x2 y2 c) s := by
  rcases not_and_or.mp h with hb | he
  · exact (outOfPanel_or_of_not_bothInBounds hb).imp_right .inl
  · exact .inr (.inr ((not_and_or.mp he).imp eq_of_not_absDiff_pos eq_of_not_absDiff_pos))

end bounds

/-- A validation fails only on the condition of its error, and past it only the decoder and the Transport
raise one. -/
theorem exec_justified {i : Instr} {s t : State} (h : exec i s = .next t) : Justified i s t := by
  cases i with
  | getpx x y | setpx x y c => cases h; exact .unless_outOfBounds outOfPanel_iff.mpr
  | fbclr c | prset x y c => cases h; exact .done
  | rowrd y => cases h; exact .unless_outOfBounds not_lt.mp
  | line x1 y1 x2 y2 c | frect x1 y1 x2 y2 c =>
    cases h; exact .unless_outOfBounds outOfPanel_or_of_not_bothInBounds
  | hline x y n c | vline x y n c =>
    cases h; exact .unless_outOfBounds fun hn => (not_and_or.mp hn).imp outOfPanel_iff.mpr not_le.mp
  | rect x1 y1 x2 y2 c => cases exec_rect.symm.trans h; exact .unless_outOfBounds rect_outOfBounds_of_not
  | texblt x y nrows rowlen payload =>
    cases h; exact .unless_illegal id (.unless_outOfBounds outOfPanel_iff.mpr)
  | putch x y code c => cases h; exact .unless_outOfBounds cellOutOfPanel_iff.mpr
  | prch code =>
    cases h; exact .unless_illegal Bool.eq_false_iff.mpr (.unless_outOfBounds cellOutOfPanel_iff.mpr)
  | texdec plen bytes => cases h; exact .unless_illegal id .decoded
  | dclr => exact .of_send rfl h
  | rfsh =>
    rcases le_or_gt s.height.toNat 255 with hh | hh
    · exact .of_send rfl ((exec_rfsh_of_le hh).symm.trans h)
    · cases (rfsh_failsWith_illegalCommand hh).symm.trans h
      exact .failed_illegalCommand hh
  | rfln n =>
    rcases lt_or_ge n.toNat s.height.toNat with hn | hn
    · rcases le_or_gt (n.toNat + 1) 255 with hl | hl
      · exact .of_send rfl ((exec_rfln_of_le hn hl).symm.trans h)
      · cases (rfln_failsWith_illegalCommand hn hl).symm.trans h
        exact .failed_illegalCommand ⟨hn, hl⟩
    · cases (rfln_failsWith_outOfBounds hn.not_gt).symm.trans h
      exact .failed_outOfBounds hn

/-- Settles O7: each error an operation raises excludes the other kinds, and brings its condition. -/
theorem errorKindsBelongToTheirOperations : Obligations.ErrorKindsBelongToTheirOperations := by
  intro i s t sent e h he
  cases exec_justified h sent e he with
  | outOfBounds hb => exact ⟨nofun, fun _ => hb, nofun, nofun, nofun⟩
  | illegalCommand hc => exact ⟨nofun, nofun, nofun, fun _ => hc, nofun⟩
  | truncated ht => exact ⟨nofun, nofun, fun _ => ht, nofun, nofun⟩
  | transportError hi f => exact ⟨nofun, nofun, nofun, nofun, fun _ => ⟨hi, f, rfl⟩⟩

end Sys2Proof.Machine

/-! # The reset procedure (70_reset_and_hazards.md R210, R211, R212) -/

namespace Sys2Proof.Machine

/-- No cell is listed, so every pixel is a bit of the reset byte (10_state.md R27). -/
theorem Memory.pixel_nil (x y : Nat) : Memory.pixel [] x y = true :=
  calc Memory.pixel [] x y
    _ = (BitVec.allOnes 8).getLsbD (x % 8) := rfl
    _ = decide (x % 8 < 8) := BitVec.getLsbD_allOnes
    _ = true := decide_eq_true (Nat.mod_lt x (by decide))

theorem exec_getpx_fresh {cfg : Config} {w h x y : U16} (hx : x.toNat < w.toNat)
    (hy : y.toNat < h.toNat) :
    exec (.getpx x y) (State.fresh cfg w h)
      = .next ((State.fresh cfg w h).answering (.ok (.bit true))) := by
  have hpixel : (State.fresh cfg w h).fb.pixel x.toNat y.toNat = true := Memory.pixel_nil _ _
  rw [exec_getpx_of_inBounds ⟨hx, hy⟩, hpixel]

/-- Settles O1: the reset answers `State.fresh` exactly when its width is valid, and that state has an empty
framebuffer. -/
theorem constructLeavesResetState : Obligations.ConstructLeavesResetState := by
  intro cfg w h
  refine ⟨fun hw => ?_, fun hw => if_neg hw⟩
  exact ⟨State.fresh cfg w h, State.construct_eq_ok_iff.mpr ⟨hw, rfl⟩, rfl, rfl, rfl, fun _ _ => rfl, rfl,
    rfl, rfl, rfl, fun _ _ hx hy => exec_getpx_fresh hx hy⟩

end Sys2Proof.Machine

/-! # Words of the spec's programs, and payloads of the wrong length (30_encoding.md R71, R75) -/

namespace Sys2Proof

/-- Bytes decode to the operation they are the encoding of, and nothing is left behind it. -/
theorem decode_of_eq_encode {i : Instr} {bs : List Byte} (hi : i.WellFormed) (h : bs = encode i) :
    decode bs = .instr i [] := by
  simpa [h] using decode_encode_append hi []

/-- Settles O15: each word is the encoding of its operation. -/
theorem specWordsDecode : Obligations.SpecWordsDecode :=
  ⟨decode_of_eq_encode rfl (by decide), decode_of_eq_encode rfl (by decide),
    decode_of_eq_encode rfl (by decide), decode_of_eq_encode rfl (by decide),
    decode_of_eq_encode rfl (by decide), decode_of_eq_encode rfl (by decide)⟩

theorem Instr.not_wellFormed_iff {i : Instr} : ¬ i.WellFormed ↔ i.payload.length ≠ i.payloadLength :=
  not_congr beq_iff_eq

end Sys2Proof

namespace Sys2Proof.Machine

/-- Settles O37: TEXBLT and TEXDEC check their payload's length before anything else, and every other
operation has no payload and announces none (30_encoding.md R75). -/
theorem wrongPayloadLengthIsIllegal : Obligations.WrongPayloadLengthIsIllegal := by
  intro i s hi
  have hlen : i.payload.length ≠ i.payloadLength := Instr.not_wellFormed_iff.mp hi
  cases i with
  | texblt | texdec => exact failsWith_of_not rfl hlen
  | _ => exact absurd rfl hlen

end Sys2Proof.Machine
